-- ==== Sys2Proof/Word.lean ====
section
/-! DEFINITION. The word types of the machine: every value is unsigned (spec 00_scope R6) and bit 0 is
the least significant bit (R7). -/

namespace Sys2Proof

/-- A memory byte or the contents of a general register (10_state R21, R30). -/
abbrev Byte := BitVec 8

/-- An instruction word, the program counter, the index register, a stack entry (10_state R24 to R26). -/
abbrev Word := BitVec 16

/-- A 4-bit field of the instruction word (30_encoding R71). -/
abbrev Nibble := BitVec 4

/-- The 12-bit immediate address `nnn` (30_encoding R71). -/
abbrev Addr12 := BitVec 12

/-- The number of a general register, 0 to 15: every 4-bit field names one (10_state R21). -/
abbrev Reg := Fin 16

/-- The number of a key, 0 to 15 (44_keys_and_timers R210). -/
abbrev Key := Fin 16

/-- What the keyboard shows in one cycle: no key, or the one pressed key (44_keys_and_timers R210). -/
abbrev KeySample := Option Key

end Sys2Proof
end

