-- ==== Sys2Proof/Machine/Flags.lean ====
section
/-! DEFINITION. The flags an instruction leaves in `VF` (spec 41_alu R130, R144): the full byte 0x00 or 0x01.
Sums are computed exactly and compared with the largest byte. -/

namespace Sys2Proof.Machine

/-- The register that holds the flag, `VF` (10_state R22). -/
abbrev vf : Reg := 15

/-- A flag as it is written: 0x01 or 0x00 (41_alu R130). -/
def flagByte (b : Bool) : Byte := if b then 1 else 0

/-- Carry out of the 8-bit addition: the exact sum exceeds 255 (41_alu R138). -/
def carryFlag (a b : Byte) : Byte := flagByte (decide (255 < a.toNat + b.toNat))

/-- `a` strictly above `b`, unsigned: the flag of the subtractions (41_alu R139, R141). -/
def greaterFlag (a b : Byte) : Byte := flagByte (decide (b.toNat < a.toNat))

/-- The bit a right shift drops, bit 0 (41_alu R140). -/
def lowBitFlag (a : Byte) : Byte := flagByte (a.getLsbD 0)

/-- The bit a left shift drops, bit 7 (41_alu R142). -/
def highBitFlag (a : Byte) : Byte := flagByte (a.getLsbD 7)

end Sys2Proof.Machine
end

