-- ==== Sys2Proof/Syntax.lean ====
section
/-! DEFINITION. The syntax of the 34 instructions (spec 30_encoding R78), one constructor for each row of
the opcode table, in the order of that table. Operands are the fields of the word (R71). A field that
decoding ignores (R80: the low nibble of classes 5 and 9, the `y` of the shifts) is kept, so that an
instruction is exactly one 16-bit word (log entry 17). -/

namespace Sys2Proof

inductive Instr where
  /-- `00E0` clear display (43_display R185). -/
  | cls
  /-- `00EE` return (40_cycle_and_control R105). -/
  | ret
  /-- `1nnn` jump (R106). -/
  | jp (nnn : Addr12)
  /-- `2nnn` call (R107). -/
  | call (nnn : Addr12)
  /-- `3xkk` skip if register equals immediate (R109). -/
  | seImm (x : Reg) (kk : Byte)
  /-- `4xkk` skip if register differs from immediate (R110). -/
  | sneImm (x : Reg) (kk : Byte)
  /-- `5xy_` skip if registers are equal; `n` is ignored (R111). -/
  | seReg (x y : Reg) (n : Nibble)
  /-- `9xy_` skip if registers differ; `n` is ignored (R112). -/
  | sneReg (x y : Reg) (n : Nibble)
  /-- `6xkk` load immediate (41_alu R132). -/
  | ldImm (x : Reg) (kk : Byte)
  /-- `7xkk` add immediate (R133). -/
  | addImm (x : Reg) (kk : Byte)
  /-- `8xy0` copy (R134). -/
  | ldReg (x y : Reg)
  /-- `8xy1` bitwise OR (R135). -/
  | orReg (x y : Reg)
  /-- `8xy2` bitwise AND (R136). -/
  | andReg (x y : Reg)
  /-- `8xy3` bitwise exclusive OR (R137). -/
  | xorReg (x y : Reg)
  /-- `8xy4` add with carry flag (R138). -/
  | addReg (x y : Reg)
  /-- `8xy5` subtract (R139). -/
  | subReg (x y : Reg)
  /-- `8xy7` reverse subtract (R141). -/
  | subnReg (x y : Reg)
  /-- `8xy6` shift right by one; `y` is ignored (R140). -/
  | shr (x y : Reg)
  /-- `8xyE` shift left by one; `y` is ignored (R142). -/
  | shl (x y : Reg)
  /-- `Annn` set index (42_index_and_memory R160). -/
  | ldI (nnn : Addr12)
  /-- `Bnnn` jump with offset (40_cycle_and_control R108). -/
  | jpV0 (nnn : Addr12)
  /-- `Cxkk` masked random byte (41_alu R143). -/
  | rnd (x : Reg) (kk : Byte)
  /-- `Dxyn` draw sprite (43_display R190). -/
  | drw (x y : Reg) (n : Nibble)
  /-- `Ex9E` skip if key pressed (44_keys_and_timers R211). -/
  | skp (x : Reg)
  /-- `ExA1` skip if key not pressed (R212). -/
  | sknp (x : Reg)
  /-- `Fx0A` wait for a key (R213). -/
  | ldKey (x : Reg)
  /-- `Fx07` read the delay timer (R214). -/
  | ldFromDt (x : Reg)
  /-- `Fx15` set the delay timer (R215). -/
  | ldDt (x : Reg)
  /-- `Fx18` set the sound timer (R216). -/
  | ldSt (x : Reg)
  /-- `Fx1E` add to index (42_index_and_memory R161). -/
  | addI (x : Reg)
  /-- `Fx29` font pointer (R163). -/
  | ldF (x : Reg)
  /-- `Fx33` store binary-coded decimal (R164). -/
  | ldB (x : Reg)
  /-- `Fx55` dump registers (R165). -/
  | dump (x : Reg)
  /-- `Fx65` load registers (R166). -/
  | load (x : Reg)
  deriving DecidableEq, Repr

end Sys2Proof
end

