-- ==== Sys2Proof/Decode.lean ====
section
/-! DEFINITION. Decoding, total on every word (spec 30_encoding R73 to R77), the encoder written from the
same table (R78), and the table's rows as masks and patterns. The numeric values are the spec's, which
marks them as general knowledge (log entry 7). -/

namespace Sys2Proof

/-- Bits 15:12, which select the dispatch table (30_encoding R71). -/
def fieldClass (op : Word) : Nibble := op.extractLsb' 12 4

/-- Bits 11:8, the first register number (R71). -/
def fieldX (op : Word) : Reg := (op.extractLsb' 8 4).toFin

/-- Bits 7:4, the second register number (R71). -/
def fieldY (op : Word) : Reg := (op.extractLsb' 4 4).toFin

/-- Bits 3:0 (R71). -/
def fieldN (op : Word) : Nibble := op.extractLsb' 0 4

/-- Bits 7:0, the immediate byte (R71). -/
def fieldKK (op : Word) : Byte := op.extractLsb' 0 8

/-- Bits 11:0, the immediate address (R71). -/
def fieldNNN (op : Word) : Addr12 := op.extractLsb' 0 12

/-- Table T0, an exact 16-bit match with two entries (R74). -/
def decodeT0 (op : Word) : Option Instr :=
  if op = 0x00E0#16 then some .cls
  else if op = 0x00EE#16 then some .ret
  else none

/-- Table T8, keyed by the low nibble (R75). -/
def decodeT8 (op : Word) : Option Instr :=
  match (fieldN op).toNat with
  | 0x0 => some (.ldReg (fieldX op) (fieldY op))
  | 0x1 => some (.orReg (fieldX op) (fieldY op))
  | 0x2 => some (.andReg (fieldX op) (fieldY op))
  | 0x3 => some (.xorReg (fieldX op) (fieldY op))
  | 0x4 => some (.addReg (fieldX op) (fieldY op))
  | 0x5 => some (.subReg (fieldX op) (fieldY op))
  | 0x6 => some (.shr (fieldX op) (fieldY op))
  | 0x7 => some (.subnReg (fieldX op) (fieldY op))
  | 0xE => some (.shl (fieldX op) (fieldY op))
  | _ => none

/-- Table TE, keyed by the low byte (R77). -/
def decodeTE (op : Word) : Option Instr :=
  match (fieldKK op).toNat with
  | 0x9E => some (.skp (fieldX op))
  | 0xA1 => some (.sknp (fieldX op))
  | _ => none

/-- Table TF, keyed by the low byte (R77). -/
def decodeTF (op : Word) : Option Instr :=
  match (fieldKK op).toNat with
  | 0x07 => some (.ldFromDt (fieldX op))
  | 0x0A => some (.ldKey (fieldX op))
  | 0x15 => some (.ldDt (fieldX op))
  | 0x18 => some (.ldSt (fieldX op))
  | 0x1E => some (.addI (fieldX op))
  | 0x29 => some (.ldF (fieldX op))
  | 0x33 => some (.ldB (fieldX op))
  | 0x55 => some (.dump (fieldX op))
  | 0x65 => some (.load (fieldX op))
  | _ => none

/-- Table TD, keyed by the top nibble alone: no word of its twelve classes is a decode failure (R76). -/
def decodeTD (op : Word) : Option Instr :=
  match (fieldClass op).toNat with
  | 0x1 => some (.jp (fieldNNN op))
  | 0x2 => some (.call (fieldNNN op))
  | 0x3 => some (.seImm (fieldX op) (fieldKK op))
  | 0x4 => some (.sneImm (fieldX op) (fieldKK op))
  | 0x5 => some (.seReg (fieldX op) (fieldY op) (fieldN op))
  | 0x6 => some (.ldImm (fieldX op) (fieldKK op))
  | 0x7 => some (.addImm (fieldX op) (fieldKK op))
  | 0x9 => some (.sneReg (fieldX op) (fieldY op) (fieldN op))
  | 0xA => some (.ldI (fieldNNN op))
  | 0xB => some (.jpV0 (fieldNNN op))
  | 0xC => some (.rnd (fieldX op) (fieldKK op))
  | 0xD => some (.drw (fieldX op) (fieldY op) (fieldN op))
  | _ => none

/-- Decoding: the instruction a word is, or `none` for an illegal word (R73, R79). -/
def decode (op : Word) : Option Instr :=
  match (fieldClass op).toNat with
  | 0x0 => decodeT0 op
  | 0x8 => decodeT8 op
  | 0xE => decodeTE op
  | 0xF => decodeTF op
  | _ => decodeTD op

/-- The word of two bytes as they lie in memory, the lower address first: big-endian (20_memory R54). -/
def wordOfBytes (first second : Byte) : Word := first ++ second

/-- The byte at the lower address of a word, its bits 15:8 (R54). -/
def highByte (op : Word) : Byte := op.extractLsb' 8 8

/-- The byte at the higher address of a word, its bits 7:0 (R54). -/
def lowByte (op : Word) : Byte := op.extractLsb' 0 8

/-- Decoding the two bytes an instruction occupies (R70). -/
def decodeBytes (first second : Byte) : Option Instr := decode (wordOfBytes first second)

/-- A word of a class, a register and a byte: `class ++ x ++ kk` (R71). -/
def wordXKK (c : Nibble) (x : Reg) (kk : Byte) : Word := c ++ (BitVec.ofFin x : Nibble) ++ kk

/-- A word of four nibbles: `class ++ x ++ y ++ n` (R71). -/
def wordXYN (c : Nibble) (x y : Reg) (n : Nibble) : Word :=
  c ++ (BitVec.ofFin x : Nibble) ++ (BitVec.ofFin y : Nibble) ++ n

/-- A word of a class and an address: `class ++ nnn` (R71). -/
def wordNNN (c : Nibble) (nnn : Addr12) : Word := c ++ nnn

/-- The word of an instruction (R78). -/
def encode : Instr → Word
  | .cls => 0x00E0#16
  | .ret => 0x00EE#16
  | .jp nnn => wordNNN 0x1#4 nnn
  | .call nnn => wordNNN 0x2#4 nnn
  | .seImm x kk => wordXKK 0x3#4 x kk
  | .sneImm x kk => wordXKK 0x4#4 x kk
  | .seReg x y n => wordXYN 0x5#4 x y n
  | .sneReg x y n => wordXYN 0x9#4 x y n
  | .ldImm x kk => wordXKK 0x6#4 x kk
  | .addImm x kk => wordXKK 0x7#4 x kk
  | .ldReg x y => wordXYN 0x8#4 x y 0x0#4
  | .orReg x y => wordXYN 0x8#4 x y 0x1#4
  | .andReg x y => wordXYN 0x8#4 x y 0x2#4
  | .xorReg x y => wordXYN 0x8#4 x y 0x3#4
  | .addReg x y => wordXYN 0x8#4 x y 0x4#4
  | .subReg x y => wordXYN 0x8#4 x y 0x5#4
  | .subnReg x y => wordXYN 0x8#4 x y 0x7#4
  | .shr x y => wordXYN 0x8#4 x y 0x6#4
  | .shl x y => wordXYN 0x8#4 x y 0xE#4
  | .ldI nnn => wordNNN 0xA#4 nnn
  | .jpV0 nnn => wordNNN 0xB#4 nnn
  | .rnd x kk => wordXKK 0xC#4 x kk
  | .drw x y n => wordXYN 0xD#4 x y n
  | .skp x => wordXKK 0xE#4 x 0x9E#8
  | .sknp x => wordXKK 0xE#4 x 0xA1#8
  | .ldKey x => wordXKK 0xF#4 x 0x0A#8
  | .ldFromDt x => wordXKK 0xF#4 x 0x07#8
  | .ldDt x => wordXKK 0xF#4 x 0x15#8
  | .ldSt x => wordXKK 0xF#4 x 0x18#8
  | .addI x => wordXKK 0xF#4 x 0x1E#8
  | .ldF x => wordXKK 0xF#4 x 0x29#8
  | .ldB x => wordXKK 0xF#4 x 0x33#8
  | .dump x => wordXKK 0xF#4 x 0x55#8
  | .load x => wordXKK 0xF#4 x 0x65#8

/-- One row of the opcode table: a word is the instruction exactly when `word and mask = pattern` (R78). -/
structure OpcodeRow where
  mask : Word
  pattern : Word
  deriving DecidableEq, Repr

/-- The word meets the row's mask and pattern (R78). -/
def OpcodeRow.accepts (r : OpcodeRow) (op : Word) : Bool := op &&& r.mask == r.pattern

/-- The row of the opcode table that an instruction belongs to (R78). -/
def rowOf : Instr → OpcodeRow
  | .cls => ⟨0xFFFF#16, 0x00E0#16⟩
  | .ret => ⟨0xFFFF#16, 0x00EE#16⟩
  | .jp _ => ⟨0xF000#16, 0x1000#16⟩
  | .call _ => ⟨0xF000#16, 0x2000#16⟩
  | .seImm _ _ => ⟨0xF000#16, 0x3000#16⟩
  | .sneImm _ _ => ⟨0xF000#16, 0x4000#16⟩
  | .seReg _ _ _ => ⟨0xF000#16, 0x5000#16⟩
  | .sneReg _ _ _ => ⟨0xF000#16, 0x9000#16⟩
  | .ldImm _ _ => ⟨0xF000#16, 0x6000#16⟩
  | .addImm _ _ => ⟨0xF000#16, 0x7000#16⟩
  | .ldReg _ _ => ⟨0xF00F#16, 0x8000#16⟩
  | .orReg _ _ => ⟨0xF00F#16, 0x8001#16⟩
  | .andReg _ _ => ⟨0xF00F#16, 0x8002#16⟩
  | .xorReg _ _ => ⟨0xF00F#16, 0x8003#16⟩
  | .addReg _ _ => ⟨0xF00F#16, 0x8004#16⟩
  | .subReg _ _ => ⟨0xF00F#16, 0x8005#16⟩
  | .subnReg _ _ => ⟨0xF00F#16, 0x8007#16⟩
  | .shr _ _ => ⟨0xF00F#16, 0x8006#16⟩
  | .shl _ _ => ⟨0xF00F#16, 0x800E#16⟩
  | .ldI _ => ⟨0xF000#16, 0xA000#16⟩
  | .jpV0 _ => ⟨0xF000#16, 0xB000#16⟩
  | .rnd _ _ => ⟨0xF000#16, 0xC000#16⟩
  | .drw _ _ _ => ⟨0xF000#16, 0xD000#16⟩
  | .skp _ => ⟨0xF0FF#16, 0xE09E#16⟩
  | .sknp _ => ⟨0xF0FF#16, 0xE0A1#16⟩
  | .ldKey _ => ⟨0xF0FF#16, 0xF00A#16⟩
  | .ldFromDt _ => ⟨0xF0FF#16, 0xF007#16⟩
  | .ldDt _ => ⟨0xF0FF#16, 0xF015#16⟩
  | .ldSt _ => ⟨0xF0FF#16, 0xF018#16⟩
  | .addI _ => ⟨0xF0FF#16, 0xF01E#16⟩
  | .ldF _ => ⟨0xF0FF#16, 0xF029#16⟩
  | .ldB _ => ⟨0xF0FF#16, 0xF033#16⟩
  | .dump _ => ⟨0xF0FF#16, 0xF055#16⟩
  | .load _ => ⟨0xF0FF#16, 0xF065#16⟩

/-- One instruction of each of the table's rows 1 to 17 (R78). -/
def sampleInstrsLow : List Instr :=
  [.cls, .ret, .jp 0, .call 0, .seImm 0 0, .sneImm 0 0, .seReg 0 0 0, .sneReg 0 0 0, .ldImm 0 0,
    .addImm 0 0, .ldReg 0 0, .orReg 0 0, .andReg 0 0, .xorReg 0 0, .addReg 0 0, .subReg 0 0,
    .subnReg 0 0]

/-- One instruction of each of the table's rows 18 to 34 (R78). -/
def sampleInstrsHigh : List Instr :=
  [.shr 0 0, .shl 0 0, .ldI 0, .jpV0 0, .rnd 0 0, .drw 0 0 0, .skp 0, .sknp 0, .ldKey 0,
    .ldFromDt 0, .ldDt 0, .ldSt 0, .addI 0, .ldF 0, .ldB 0, .dump 0, .load 0]

/-- The opcode table (R78). -/
def opcodeTable : List OpcodeRow := (sampleInstrsLow ++ sampleInstrsHigh).map rowOf

/-- The instruction the decoder reads from a word of `nbits` bits numbered as the opcode table numbers
them: one 16-bit word, given to the decoder as the two bytes it occupies. -/
def decodeTableWord (nbits w : Nat) : Option Instr :=
  decodeBytes (highByte (BitVec.ofNat 16 (w % 2 ^ nbits))) (lowByte (BitVec.ofNat 16 (w % 2 ^ nbits)))

end Sys2Proof
end

