-- ==== Sys2Proof/Config.lean ====
section
/-! DEFINITION. What an implementation fixes (spec 00_scope R5) and the free values of the model: the key
samples (44_keys_and_timers R210) and the random bytes (R226). The free values are constants with no
body, so nothing proved about the machine can rest on what they are. -/

namespace Sys2Proof.Config

/-- Bytes of machine memory, `MEM_SIZE` (00_scope R5). -/
abbrev memSize : Nat := 4096

/-- First address of program code, load origin and reset pc, `MEM_START` (00_scope R5). -/
abbrev memStart : Nat := 0x200

/-- Entries of the call stack, `STACK_DEPTH` (00_scope R5; PRESUMED by the spec itself, log entry 5, unsafe). -/
abbrev stackDepth : Nat := 16

/-- Display columns, `DISP_W` (00_scope R5). -/
abbrev dispW : Nat := 64

/-- Display rows, `DISP_H` (00_scope R5). -/
abbrev dispH : Nat := 32

/-- Modulus of index arithmetic, `I_MOD`: fixed, not tied to the memory size (00_scope R5). -/
abbrev indexMod : Nat := 4096

/-- The glyphs of the digits 0 to 7, five bytes each (20_memory R53). -/
def fontLow : List Byte :=
  [0xF0, 0x90, 0x90, 0x90, 0xF0] ++ [0x20, 0x60, 0x20, 0x20, 0x70] ++
  [0xF0, 0x10, 0xF0, 0x80, 0xF0] ++ [0xF0, 0x10, 0xF0, 0x10, 0xF0] ++
  [0x90, 0x90, 0xF0, 0x10, 0x10] ++ [0xF0, 0x80, 0xF0, 0x10, 0xF0] ++
  [0xF0, 0x80, 0xF0, 0x90, 0xF0] ++ [0xF0, 0x10, 0x20, 0x40, 0x40]

/-- The glyphs of the digits 8 to F, five bytes each (20_memory R53). -/
def fontHigh : List Byte :=
  [0xF0, 0x90, 0xF0, 0x90, 0xF0] ++ [0xF0, 0x90, 0xF0, 0x10, 0xF0] ++
  [0xF0, 0x90, 0xF0, 0x90, 0x90] ++ [0xE0, 0x90, 0xE0, 0x90, 0xE0] ++
  [0xF0, 0x80, 0x80, 0x80, 0xF0] ++ [0xE0, 0x90, 0x90, 0x90, 0xE0] ++
  [0xF0, 0x80, 0xF0, 0x80, 0xF0] ++ [0xF0, 0x80, 0xF0, 0x80, 0x80]

/-- `FONT_BYTES`, the 80 bytes of the font atlas, glyph `d` at address `5 * d` (20_memory R52, R53;
PRESUMED by the spec itself, log entry 6, unsafe). -/
def fontBytes : List Byte := fontLow ++ fontHigh

/-- FREE VALUE. The key sample of the cycle numbered `tick` after the reset numbered `resetNo`, where the
environment has announced none: "a free input of each cycle" (44_keys_and_timers R210, log entry 2). -/
opaque keySample (resetNo tick : Nat) : KeySample

/-- FREE VALUE. The byte of the draw numbered `draw` after a reseed with `seed`: the generator is a
parameter of the spec and the byte only a function of both (44_keys_and_timers R226, R227, log entry 3). -/
opaque seededByte (seed draw : Nat) : Byte

/-- FREE VALUE. The byte of the draw numbered `draw` after the reset numbered `resetNo`, before any
reseed: "the drawn bytes are unconstrained" (44_keys_and_timers R227, log entry 4). -/
opaque unseededByte (resetNo draw : Nat) : Byte

end Sys2Proof.Config
end

