-- ==== Sys2Proof/Machine/State.lean ====
section
/-! DEFINITION. The state of the core (spec 10_state R20), as plain data; the outcomes of a step; the state
after reset (R38, 70_reset_and_hazards R270). The fields `keys`, `ticks` and `resets` are the model's own:
they carry the free key samples and random bytes (log entries 2 and 4). -/

namespace Sys2Proof.Machine

/-- Memory as the cells that differ from the reset contents, in rising order of address (log entry 9). -/
structure Memory where
  cells : List Host.Cell
  deriving DecidableEq, Repr

/-- A display column, 0 at the left (10_state R31). -/
abbrev Col := Fin Config.dispW

/-- A display row, 0 at the top (10_state R31). -/
abbrev Row := Fin Config.dispH

/-- One bit for every cell of the display: `rows[r][c]` is the bit of column `c`, row `r` (10_state R31, R32). -/
structure Grid where
  rows : Vector (Vector Bool Config.dispW) Config.dispH
  deriving DecidableEq, Repr

/-- The grid with one bit in every cell. -/
def Grid.filled (b : Bool) : Grid :=
  ⟨Vector.replicate Config.dispH (Vector.replicate Config.dispW b)⟩

/-- The display surface unit: the pixels and the dirty set (43_display R180). -/
structure Surface where
  px : Grid
  dirty : Grid
  deriving DecidableEq, Repr

/-- The state of the random byte source: the seed of the last reseed, if there was one since reset, and
the number of bytes drawn since (10_state R33, 44_keys_and_timers R226; log entry 3). -/
structure Rng where
  seed : Option Nat
  draws : Nat
  deriving DecidableEq, Repr

/-- The five causes of a fault (60_exceptions R240). -/
inductive FaultCause where
  /-- The fetched word is no instruction (R241). -/
  | decodeFault
  /-- A call with a full stack (R242). -/
  | stackOverflow
  /-- A return with an empty stack (R243). -/
  | stackUnderflow
  /-- A fetch whose second byte lies outside memory (R245). -/
  | fetchOutOfRange
  /-- A data access at or above the end of memory (R246). -/
  | memOutOfRange
  deriving DecidableEq, Repr

/-- The fault record: cause, offending word, address of the instruction, lowest offending data or fetch
address (10_state R34, 60_exceptions R240). -/
structure FaultRecord where
  cause : FaultCause
  opcode : Option Word
  pc : Word
  addr : Option Nat
  deriving DecidableEq, Repr

/-- The state of the core (10_state R20). -/
structure State where
  /-- `V[0..15]` (R21). -/
  v : Vector Byte 16
  /-- `I` (R25). -/
  index : Word
  /-- The program counter (R24). -/
  pc : Word
  /-- The stack pointer, the number of live stack entries (R27). -/
  sp : Fin (Config.stackDepth + 1)
  /-- The call stack (R26). -/
  stack : Vector Word Config.stackDepth
  /-- `DT`, the delay timer (R28). -/
  dt : Byte
  /-- `ST`, the sound timer (R29). -/
  st : Byte
  /-- Machine memory (R30). -/
  mem : Memory
  /-- `px` and `dirty` (R31, R32). -/
  display : Surface
  /-- The random source (R33). -/
  rng : Rng
  /-- The fault record, or none (R34). -/
  fault : Option FaultRecord
  /-- The output `tone_stop` of the last cycle (44_keys_and_timers R221; log entry 13). -/
  toneStop : Bool
  /-- The model's own: the key samples announced for the coming ticks, oldest first (log entry 2). -/
  keys : List KeySample
  /-- The model's own: cycles completed since reset (log entry 2). -/
  ticks : Nat
  /-- The model's own: how often the host has reset the core (log entry 4). -/
  resets : Nat
  deriving DecidableEq, Repr

/-- Why a step would stop the model. It has NO constructor, so no step ever ends so (safe): every fault of
this hardware has its entry described by the spec (60_exceptions R244, R248), so raising it is a next
state that holds the fault record, and a tick of a faulted core is a next state equal to the one before
(log entry 1). -/
inductive Fault where
  deriving DecidableEq, Repr

/-- Why an operation is turned away. -/
inductive Refusal where
  /-- An instruction that has no meaning yet. Raised by no arm: all 34 instructions are modelled. Safe. -/
  | notModelled (mnemonic : String)
  /-- Raised by the host operation `loadRom` on an image that does not fit (60_exceptions R252). Safe. -/
  | romTooLarge
  /-- Raised by the host operation `loadRom` on a core that has been ticked since reset, which the spec
  leaves unmodelled (70_reset_and_hazards R272; log entry 16). Safe. -/
  | loadAfterFirstTick
  deriving DecidableEq, Repr

/-- What a meaning answers. -/
abbrev Result := Host.Outcome State Fault Refusal

/-- The state after reset (10_state R38, 70_reset_and_hazards R270). No memory cell is listed, so memory
holds the font atlas and zeros. -/
def State.reset : State where
  v := Vector.replicate 16 0
  index := 0
  pc := BitVec.ofNat 16 Config.memStart
  sp := 0
  stack := Vector.replicate Config.stackDepth 0
  dt := 0
  st := 0
  mem := ⟨[]⟩
  display := ⟨Grid.filled false, Grid.filled true⟩
  rng := ⟨none, 0⟩
  fault := none
  toneStop := false
  keys := []
  ticks := 0
  resets := 0

end Sys2Proof.Machine
end

