-- ==== Sys2Proof/Machine/Ops.lean ====
section
/-! DEFINITION. The named operations over memory, registers, stack, timers and the environment's inputs;
taking a fault, as one shared operation; the steps of the cycle around an instruction (spec
40_cycle_and_control R100). -/

namespace Sys2Proof.Machine

/-! ### Memory (20_memory) -/

/-- What an address reads as when no cell is listed for it: the reset contents, that is the font atlas
from 0 to 79 and 0 above (10_state R38, 20_memory R51). -/
def unlisted (a : Nat) : Byte := Config.fontBytes.getD a 0

/-- The first listed value of an address, else its reset contents. -/
def lookupCell : List Host.Cell → Nat → Byte
  | [], a => unlisted a
  | (b, w) :: rest, a => if a = b then w else lookupCell rest a

/-- `mem[a]` (20_memory R56). -/
def Memory.byteAt (m : Memory) (a : Nat) : Byte := lookupCell m.cells a

/-- A cell put before the first cell of a higher address. -/
def insertCell (a : Nat) (w : Byte) : List Host.Cell → List Host.Cell
  | [] => [(a, w)]
  | (b, u) :: rest => if a < b then (a, w) :: (b, u) :: rest else (b, u) :: insertCell a w rest

/-- `mem[a] <- w` in the canonical form: writing the reset contents lists nothing (20_memory R57). -/
def Memory.setByte (m : Memory) (a : Nat) (w : Byte) : Memory :=
  let others := m.cells.filter (fun c => c.1 != a)
  if w = unlisted a then ⟨others⟩ else ⟨insertCell a w others⟩

/-- The canonical form of memory: addresses exist and rise strictly, and no cell holds the reset contents
of its address. -/
abbrev Memory.wf (m : Memory) : Prop :=
  m.cells.Pairwise (fun c d => c.1 < d.1) ∧
    ∀ c ∈ m.cells, c.1 < Config.memSize ∧ c.2 ≠ unlisted c.1

/-- `MemRead(a, 1)`: the byte, or the offending address (20_memory R56). -/
def memRead (m : Memory) (a : Nat) : Except Nat Byte :=
  if a < Config.memSize then .ok (m.byteAt a) else .error a

/-- `MemWrite(a, 1, w)`: the memory after, or the offending address (20_memory R57). -/
def memWrite (m : Memory) (a : Nat) (w : Byte) : Except Nat Memory :=
  if a < Config.memSize then .ok (m.setByte a w) else .error a

/-- `count` bytes read at rising addresses from `a`; the first offending address stops it (42 R167, R168). -/
def readBytes (m : Memory) (a : Nat) : Nat → Except Nat (List Byte)
  | 0 => .ok []
  | count + 1 =>
    match memRead m a with
    | .error e => .error e
    | .ok b =>
      match readBytes m (a + 1) count with
      | .error e => .error e
      | .ok bs => .ok (b :: bs)

/-- Bytes written at rising addresses from `a`; the first offending address stops it, and then nothing of
it is kept (42 R167, R168). -/
def writeBytes (m : Memory) (a : Nat) : List Byte → Except Nat Memory
  | [] => .ok m
  | b :: bs =>
    match memWrite m a b with
    | .error e => .error e
    | .ok m' => writeBytes m' (a + 1) bs

/-- The word at `a`, or none where its second byte lies outside memory (20_memory R54, R58). -/
def fetchWord (m : Memory) (a : Nat) : Option Word :=
  if a + 1 < Config.memSize then some (wordOfBytes (m.byteAt a) (m.byteAt (a + 1))) else none

/-! ### Registers, program counter, stack (10_state) -/

/-- `V[x]` (10_state R21). -/
def State.reg (s : State) (x : Reg) : Byte := s.v[x.val]

/-- `V[x] <- b` (10_state R21: no register is hardwired). -/
def State.setReg (s : State) (x : Reg) (b : Byte) : State := { s with v := s.v.set x.val b }

/-- The register file replaced. -/
def State.setRegs (s : State) (v : Vector Byte 16) : State := { s with v := v }

/-- `pc <- w`, at the advance step of the cycle (40_cycle_and_control R100 step 5). -/
def State.goTo (s : State) (w : Word) : State := { s with pc := w }

/-- `next_pc` of an instruction that does not name it: `pc + 2` (40_cycle_and_control R100 step 3). -/
def State.advance (s : State) : State := s.goTo (s.pc + 2)

/-- The advance of a skip: `pc + 4` when the condition holds, else `pc + 2` (40_cycle_and_control R113). -/
def State.skipIf (s : State) (cond : Bool) : State := s.goTo (if cond then s.pc + 4 else s.pc + 2)

/-- `I <- w` (10_state R25). -/
def State.setIndex (s : State) (w : Word) : State := { s with index := w }

/-- `DT <- b` (10_state R28). -/
def State.setDt (s : State) (b : Byte) : State := { s with dt := b }

/-- `ST <- b` (10_state R29). -/
def State.setSt (s : State) (b : Byte) : State := { s with st := b }

/-- The memory of a state replaced. -/
def State.setMem (s : State) (m : Memory) : State := { s with mem := m }

/-- The display surface of a state replaced. -/
def State.setDisplay (s : State) (d : Surface) : State := { s with display := d }

/-- A push: `stack[sp] <- w`, then `sp <- sp + 1`; none when the stack is full (10_state R27). -/
def State.push (s : State) (w : Word) : Option State :=
  if h : s.sp.val < Config.stackDepth then
    some { s with stack := s.stack.set s.sp.val w h, sp := ⟨s.sp.val + 1, Nat.succ_lt_succ h⟩ }
  else none

/-- A pop: `sp <- sp - 1`, then `stack[sp]`, whose entry stays; none when the stack is empty (10_state
R27). -/
def State.pop (s : State) : Option (Word × State) :=
  match s.sp with
  | ⟨0, _⟩ => none
  | ⟨k + 1, h⟩ =>
    some (s.stack[k]'(Nat.lt_of_succ_lt_succ h), { s with sp := ⟨k, Nat.lt_of_succ_lt h⟩ })

/-! ### The environment's inputs (44_keys_and_timers) -/

/-- The key sample of this cycle: the one announced for it, else a free value (R210, log entry 2). -/
def State.key (s : State) : KeySample :=
  match s.keys with
  | k :: _ => k
  | [] => Config.keySample s.resets s.ticks

/-- The announced key samples replaced (log entry 2). -/
def State.setKeys (s : State) (ks : List KeySample) : State := { s with keys := ks }

/-- The byte the random source yields next (R226; a free value, log entries 3 and 4). -/
def State.randomByte (s : State) : Byte :=
  match s.rng.seed with
  | some seed => Config.seededByte seed s.rng.draws
  | none => Config.unseededByte s.resets s.rng.draws

/-- The random source after one draw (R226). -/
def State.drawn (s : State) : State := { s with rng := ⟨s.rng.seed, s.rng.draws + 1⟩ }

/-! ### Faults (60_exceptions) -/

/-- The cause codes (60_exceptions R240). -/
def FaultCause.code : FaultCause → Nat
  | .decodeFault => 1
  | .stackOverflow => 2
  | .stackUnderflow => 3
  | .fetchOutOfRange => 4
  | .memOutOfRange => 5

/-- Fault entry: the record is set, with the address of the instruction, and `tone_stop` is 0; nothing
else changes, no handler is entered (60_exceptions R244, R248; log entry 1). There is no return from a
fault; the one exit is reset (R249, `hostReset` in Env.lean). -/
def State.raise (s : State) (cause : FaultCause) (opcode : Option Word) (addr : Option Nat) : State :=
  { s with fault := some ⟨cause, opcode, s.pc, addr⟩, toneStop := false }

/-! ### The cycle around an instruction (40_cycle_and_control R100) -/

/-- A timer one lower, never below 0 (44_keys_and_timers R220). -/
def decremented (b : Byte) : Byte := if b = 0 then 0 else b - 1

/-- Steps 6 and 7: both timers count down, and `tone_stop` is 1 exactly when `ST` went from 1 to 0 (44
R220, R221). The cycle's key sample is used up. -/
def State.endCycle (s : State) : State :=
  { s with
    dt := decremented s.dt
    st := decremented s.st
    toneStop := decide (s.st = 1)
    keys := s.keys.tail
    ticks := s.ticks + 1 }

/-- What follows the instruction's effect: nothing when it raised a fault, else steps 6 and 7 (R100). -/
def State.afterExec (s : State) : State := if s.fault.isSome then s else s.endCycle

end Sys2Proof.Machine
end

