-- ==== Sys2Proof/Machine/Operands.lean ====
section
/-! DEFINITION. The operand forms (spec 30_encoding R72, 42_index_and_memory R167): registers are read by
`State.reg`, the immediate byte stands as it is, and the forms below are the rest. -/

namespace Sys2Proof.Machine

/-- The 12-bit immediate in a 16-bit register: zero-extended (30_encoding R72). -/
def addrOperand (nnn : Addr12) : Word := nnn.setWidth 16

/-- A register's byte in a 16-bit sum: zero-extended (40_cycle_and_control R108, 42 R161, R163). -/
def wide (b : Byte) : Word := b.setWidth 16

/-- The base of a data access, `I` as an address; the effective addresses `I + k` are plain sums, not
reduced (42_index_and_memory R167). -/
def State.base (s : State) : Nat := s.index.toNat

/-- `V[0]` to `V[x]`, in order (42_index_and_memory R165). -/
def State.regsUpTo (s : State) (x : Reg) : List Byte := s.v.toList.take (x.val + 1)

/-- Registers written from `k` on with bytes, one each (42_index_and_memory R166). -/
def loadFrom (v : Vector Byte 16) (k : Nat) : List Byte → Vector Byte 16
  | [] => v
  | b :: bs => loadFrom (v.setIfInBounds k b) (k + 1) bs

/-- The pressed key is the one the whole byte numbers; no key equals nothing (44_keys_and_timers R211). -/
def keyIs (k : KeySample) (b : Byte) : Bool :=
  match k with
  | none => false
  | some key => key.val == b.toNat

/-- A key's number as a register's byte (44_keys_and_timers R213). -/
def keyByte (k : Key) : Byte := BitVec.ofNat 8 k.val

end Sys2Proof.Machine
end

