-- ==== Sys2Proof/Machine/Alu.lean ====
section
/-! DEFINITION. Register load, arithmetic, logic, shift and random (spec 41_alu R130 to R144). Operands are
latched before any write, and the writes come in the order of the rule (R131; log entry 10). -/

namespace Sys2Proof.Machine

/-- The result to `V[x]`, then the flag to `VF` (R131: the order of the addition). -/
def State.resultThenFlag (s : State) (x : Reg) (result flag : Byte) : State :=
  ((s.setReg x result).setReg vf flag).advance

/-- The flag to `VF`, then the result to `V[x]` (R131: the order of the subtractions and shifts). -/
def State.flagThenResult (s : State) (x : Reg) (flag result : Byte) : State :=
  ((s.setReg vf flag).setReg x result).advance

/-- `6xkk` LD (R132). -/
def execLdImm (x : Reg) (kk : Byte) (s : State) : Result := .next (s.setReg x kk).advance

/-- `7xkk` ADD: no flag (R133). -/
def execAddImm (x : Reg) (kk : Byte) (s : State) : Result := .next (s.setReg x (s.reg x + kk)).advance

/-- `8xy0` LD (R134). -/
def execLdReg (x y : Reg) (s : State) : Result := .next (s.setReg x (s.reg y)).advance

/-- `8xy1` OR: no flag (R135). -/
def execOrReg (x y : Reg) (s : State) : Result := .next (s.setReg x (s.reg x ||| s.reg y)).advance

/-- `8xy2` AND: no flag (R136). -/
def execAndReg (x y : Reg) (s : State) : Result := .next (s.setReg x (s.reg x &&& s.reg y)).advance

/-- `8xy3` XOR: no flag (R137). -/
def execXorReg (x y : Reg) (s : State) : Result := .next (s.setReg x (s.reg x ^^^ s.reg y)).advance

/-- `8xy4` ADD (R138). -/
def execAddReg (x y : Reg) (s : State) : Result :=
  .next (s.resultThenFlag x (s.reg x + s.reg y) (carryFlag (s.reg x) (s.reg y)))

/-- `8xy5` SUB (R139). -/
def execSubReg (x y : Reg) (s : State) : Result :=
  .next (s.flagThenResult x (greaterFlag (s.reg x) (s.reg y)) (s.reg x - s.reg y))

/-- `8xy7` SUBN (R141). -/
def execSubnReg (x y : Reg) (s : State) : Result :=
  .next (s.flagThenResult x (greaterFlag (s.reg y) (s.reg x)) (s.reg y - s.reg x))

/-- `8xy6` SHR: `y` is ignored (R140). -/
def execShr (x : Reg) (s : State) : Result :=
  .next (s.flagThenResult x (lowBitFlag (s.reg x)) (s.reg x >>> 1))

/-- `8xyE` SHL: `y` is ignored (R142). -/
def execShl (x : Reg) (s : State) : Result :=
  .next (s.flagThenResult x (highBitFlag (s.reg x)) (s.reg x <<< 1))

/-- `Cxkk` RND: one byte is drawn, whatever the mask (R143). -/
def execRnd (x : Reg) (kk : Byte) (s : State) : Result :=
  .next (s.drawn.setReg x (kk &&& s.randomByte)).advance

end Sys2Proof.Machine
end

