-- ==== Sys2Proof/Machine/Control.lean ====
section
/-! DEFINITION. The control-transfer instructions and the register skips (spec 40_cycle_and_control R105 to
R114). A meaning is step 4 of the cycle (R100) with `next_pc` written to `pc`. -/

namespace Sys2Proof.Machine

/-- `00EE` RET (R105). -/
def execRet (s : State) : Result :=
  match s.pop with
  | none => .next (s.raise .stackUnderflow (some (encode .ret)) none)
  | some (entry, t) => .next (t.goTo (entry + 2))

/-- `1nnn` JP (R106). -/
def execJp (nnn : Addr12) (s : State) : Result := .next (s.goTo (addrOperand nnn))

/-- `2nnn` CALL: the pushed value is the call's own address (R107). -/
def execCall (nnn : Addr12) (s : State) : Result :=
  match s.push s.pc with
  | none => .next (s.raise .stackOverflow (some (encode (.call nnn))) none)
  | some t => .next (t.goTo (addrOperand nnn))

/-- `Bnnn` JP V0: the sum is not reduced modulo 4096 (R108). -/
def execJpV0 (nnn : Addr12) (s : State) : Result :=
  .next (s.goTo (wide (s.reg 0) + addrOperand nnn))

/-- `3xkk` SE (R109). -/
def execSeImm (x : Reg) (kk : Byte) (s : State) : Result := .next (s.skipIf (s.reg x == kk))

/-- `4xkk` SNE (R110). -/
def execSneImm (x : Reg) (kk : Byte) (s : State) : Result := .next (s.skipIf (s.reg x != kk))

/-- `5xy_` SE: the low nibble is ignored (R111). -/
def execSeReg (x y : Reg) (s : State) : Result := .next (s.skipIf (s.reg x == s.reg y))

/-- `9xy_` SNE: the low nibble is ignored (R112). -/
def execSneReg (x y : Reg) (s : State) : Result := .next (s.skipIf (s.reg x != s.reg y))

end Sys2Proof.Machine
end

