-- ==== Sys2Proof/Machine/Display.lean ====
section
/-! DEFINITION. The display surface unit, the sprite compositor with collision detection, and the two
display instructions (spec 43_display R180 to R192). -/

namespace Sys2Proof.Machine

/-- The bit of column `c`, row `r` (10_state R31). -/
def Grid.get (g : Grid) (c : Col) (r : Row) : Bool := g.rows[r.val][c.val]

/-- The grid with the bit of column `c`, row `r` written. -/
def Grid.put (g : Grid) (c : Col) (r : Row) (b : Bool) : Grid :=
  ⟨g.rows.set r.val (g.rows[r.val].set c.val b)⟩

/-- Operation `clear`: every pixel 0, every cell dirty (43_display R181). -/
def Surface.clear (_ : Surface) : Surface := ⟨Grid.filled false, Grid.filled true⟩

/-- One source bit of a sprite and its target cell (43_display R182). -/
structure SpriteBit where
  col : Col
  row : Row
  src : Bool
  deriving DecidableEq, Repr

/-- The eight bits of sprite row `k`, most significant first, with their wrapped target cells (R182). -/
def rowBits (sx : Col) (sy : Row) (k : Nat) (b : Byte) : List SpriteBit :=
  (List.range 8).map fun c =>
    ⟨Fin.ofNat Config.dispW (sx.val + c), Fin.ofNat Config.dispH (sy.val + k), b.getLsbD (7 - c)⟩

/-- The bits of the sprite rows from number `k` on, in the order of the two loops (R182). -/
def spriteBits (sx : Col) (sy : Row) : Nat → List Byte → List SpriteBit
  | _, [] => []
  | k, b :: bs => rowBits sx sy k b ++ spriteBits sx sy (k + 1) bs

/-- The surface and the collision bit while a sprite is drawn (R182). -/
structure Drawing where
  surface : Surface
  collision : Bool
  deriving DecidableEq, Repr

/-- The body of the loops: a set source bit inverts its cell and marks it dirty, and collides when the
cell was set; a clear one does nothing (R182). -/
def composeBit (d : Drawing) (t : SpriteBit) : Drawing :=
  if t.src then
    { surface :=
        { px := d.surface.px.put t.col t.row (!d.surface.px.get t.col t.row)
          dirty := d.surface.dirty.put t.col t.row true }
      collision := d.collision || d.surface.px.get t.col t.row }
  else d

/-- Operation `compose` (43_display R182). -/
def compose (f : Surface) (sx : Col) (sy : Row) (rows : List Byte) : Drawing :=
  (spriteBits sx sy 0 rows).foldl composeBit ⟨f, false⟩

/-- `00E0` CLS (R185). -/
def execCls (s : State) : Result := .next (s.setDisplay s.display.clear).advance

/-- The start column: the byte modulo the display's width (R190). -/
def startCol (b : Byte) : Col := Fin.ofNat Config.dispW b.toNat

/-- The start row: the byte modulo the display's height (R190). -/
def startRow (b : Byte) : Row := Fin.ofNat Config.dispH b.toNat

/-- `Dxyn` DRW: the coordinates are latched before `VF` is reset (R190, 41_alu R131). -/
def execDrw (x y : Reg) (n : Nibble) (s : State) : Result :=
  match readBytes s.mem s.base n.toNat with
  | .error a => .next (s.raise .memOutOfRange (some (encode (.drw x y n))) (some a))
  | .ok rows =>
    let d := compose s.display (startCol (s.reg x)) (startRow (s.reg y)) rows
    .next ((s.setDisplay d.surface).setReg vf (flagByte d.collision)).advance

end Sys2Proof.Machine
end

