-- ==== Sys2Proof/Machine/Index.lean ====
section
/-! DEFINITION. The index register and memory instructions (spec 42_index_and_memory R160 to R168). None
writes a flag; the memory instructions leave `I` as it was (R162). -/

namespace Sys2Proof.Machine

/-- `Annn` LD I (R160). -/
def execLdI (nnn : Addr12) (s : State) : Result := .next (s.setIndex (addrOperand nnn)).advance

/-- `Fx1E` ADD I: modulo 4096, no flag (R161). -/
def execAddI (x : Reg) (s : State) : Result :=
  .next (s.setIndex (BitVec.ofNat 16 ((s.base + (s.reg x).toNat) % Config.indexMod))).advance

/-- `Fx29` LD F: the whole byte times 5 (R163). -/
def execLdF (x : Reg) (s : State) : Result := .next (s.setIndex (5 * wide (s.reg x))).advance

/-- The decimal digits of a byte: hundreds, tens, units (R164). -/
def decimalDigits (a : Byte) : List Byte := [a / 100, a / 10 % 10, a % 10]

/-- Bytes stored from `I` on by the instruction `op`: all of them, or a fault and none (R168). -/
def State.storeAtIndex (s : State) (op : Word) (bytes : List Byte) : State :=
  match writeBytes s.mem s.base bytes with
  | .error a => s.raise .memOutOfRange (some op) (some a)
  | .ok m => (s.setMem m).advance

/-- `Fx33` LD B (R164). -/
def execLdB (x : Reg) (s : State) : Result :=
  .next (s.storeAtIndex (encode (.ldB x)) (decimalDigits (s.reg x)))

/-- `Fx55` LD [I] (R165). -/
def execDump (x : Reg) (s : State) : Result :=
  .next (s.storeAtIndex (encode (.dump x)) (s.regsUpTo x))

/-- `Fx65` LD Vx, [I] (R166). -/
def execLoad (x : Reg) (s : State) : Result :=
  match readBytes s.mem s.base (x.val + 1) with
  | .error a => .next (s.raise .memOutOfRange (some (encode (.load x))) (some a))
  | .ok bytes => .next (s.setRegs (loadFrom s.v 0 bytes)).advance

end Sys2Proof.Machine
end

