-- ==== Sys2Proof/Machine/Keys.lean ====
section
/-! DEFINITION. The key and timer instructions (spec 44_keys_and_timers R211 to R216). -/

namespace Sys2Proof.Machine

/-- `Ex9E` SKP: the whole byte is compared (R211). -/
def execSkp (x : Reg) (s : State) : Result := .next (s.skipIf (keyIs s.key (s.reg x)))

/-- `ExA1` SKNP: the complement (R212). -/
def execSknp (x : Reg) (s : State) : Result := .next (s.skipIf (!keyIs s.key (s.reg x)))

/-- The effect of the wait: `pc` stays while no key is pressed, else the key goes to `V[x]` (R213). -/
def State.awaitKey (s : State) (x : Reg) : State :=
  match s.key with
  | none => s.goTo s.pc
  | some k => (s.setReg x (keyByte k)).advance

/-- `Fx0A` LD Vx, K (R213). -/
def execLdKey (x : Reg) (s : State) : Result := .next (s.awaitKey x)

/-- `Fx07` LD Vx, DT: the timer before this cycle's decrement (R214). -/
def execLdFromDt (x : Reg) (s : State) : Result := .next (s.setReg x s.dt).advance

/-- `Fx15` LD DT, Vx: the decrement of the same cycle follows (R215). -/
def execLdDt (x : Reg) (s : State) : Result := .next (s.setDt (s.reg x)).advance

/-- `Fx18` LD ST, Vx: the decrement of the same cycle follows (R216). -/
def execLdSt (x : Reg) (s : State) : Result := .next (s.setSt (s.reg x)).advance

end Sys2Proof.Machine
end

