-- ==== Sys2Proof/Machine/Cycle.lean ====
section
/-! DEFINITION. The cycle: what one external tick does to the core (spec 40_cycle_and_control R100, R101;
60_exceptions R247, R248). -/

namespace Sys2Proof.Machine

/-- Steps 4 to 7 for the decoded instruction (R100). -/
def runDecoded (i : Instr) (s : State) : Result :=
  match exec i s with
  | .next t => .next t.afterExec
  | .fault r => .fault r
  | .refused r => .refused r

/-- Steps 2 to 7 for the fetched word: an illegal word is a `DecodeFault` (R100, 60_exceptions R241). -/
def runWord (op : Word) (s : State) : Result :=
  match decode op with
  | none => .next (s.raise .decodeFault (some op) none)
  | some i => runDecoded i s

/-- Steps 1 to 7: the fetch first (R100, 60_exceptions R245). -/
def cycle (s : State) : Result :=
  match fetchWord s.mem s.pc.toNat with
  | none => .next (s.raise .fetchOutOfRange none (some s.pc.toNat))
  | some op => runWord op s

/-- One tick: a faulted core ignores it, else one cycle is performed (R101, 60_exceptions R248). -/
def tickOnce (s : State) : Result := if s.fault.isSome then .next s else cycle s

/-- The memory with a word stored big-endian at `a`, where both bytes exist (20_memory R54, R58). -/
def placeWord (m : Memory) (a : Nat) (op : Word) : Memory :=
  if a + 1 < Config.memSize then (m.setByte a (highByte op)).setByte (a + 1) (lowByte op) else m

end Sys2Proof.Machine
end

