-- ==== Sys2Proof/Machine/Step.lean ====
section
/-! DEFINITION. One step of the machine is one tick (spec 40_cycle_and_control R100). It only calls the
cycle. -/

namespace Sys2Proof.Machine

/-- One tick of the core. -/
def step (s : State) : Host.Outcome State Fault Refusal := tickOnce s

/-- The state with a table word of `nbits` bits stored where the next fetch reads it: at `pc`, big-endian.
It stands for the host's load (70_reset_and_hazards R272; log entry 15). -/
def State.withFetchWord (s : State) (nbits w : Nat) : State :=
  s.setMem (placeWord s.mem s.pc.toNat (BitVec.ofNat 16 (w % 2 ^ nbits)))

end Sys2Proof.Machine
end

