-- ==== Sys2Proof/WellFormed.lean ====
section
/-! DEFINITION. The checks on data that the types do not already make. The fields of `Instr` have the
widths of the word's fields (spec 30_encoding R71, R72), so every term of `Instr` is a well-formed
instruction and there is nothing to check on it. What is left: a program image must fit (20_memory R66),
and the parameters must meet the constraints of 00_scope R5. -/

namespace Sys2Proof

/-- A program image fits between `MEM_START` and the end of memory (20_memory R66, 70_reset_and_hazards
R272). -/
def imageFits (bytes : List Byte) : Bool :=
  decide (bytes.length ≤ Config.memSize - Config.memStart)

/-- The constraints on the parameters (00_scope R5). -/
def sizesOk (memSize memStart stackDepth dispW dispH : Nat) : Bool :=
  decide (memStart + 2 ≤ memSize) && decide (memSize ≤ 65536) && decide (80 ≤ memStart) &&
    decide (8 ≤ dispW) && decide (15 ≤ dispH) && decide (1 ≤ stackDepth)

end Sys2Proof
end

