-- ==== Sys2Proof/Machine/Env.lean ====
section
/-! DEFINITION. What the environment can do to the core between cycles, and what the core shows it (spec
60_exceptions R256). -/

namespace Sys2Proof.Machine

/-- `reset`: every piece of state at its reset value, and the random source unspecified again: the count
of resets names new free values (70_reset_and_hazards R270, R271; log entry 4). -/
def hostReset (s : State) : State := { State.reset with resets := s.resets + 1 }

/-- `load_rom`: the image to memory from `MEM_START` on, whole or not at all, before the first tick
(70_reset_and_hazards R272, 60_exceptions R252; log entry 16). -/
def loadRom (s : State) (bytes : List Byte) : Result :=
  if s.ticks ≠ 0 ∨ s.fault.isSome then .refused .loadAfterFirstTick
  else if imageFits bytes then
    match writeBytes s.mem Config.memStart bytes with
    | .ok m => .next (s.setMem m)
    | .error _ => .refused .romTooLarge
  else .refused .romTooLarge

/-- `reseed`: the random source starts from a seed (44_keys_and_timers R227). -/
def reseed (s : State) (seed : Nat) : State := { s with rng := ⟨some seed, 0⟩ }

/-- The key sample of the next tick announced (44_keys_and_timers R210). -/
def presentKey (s : State) (k : KeySample) : State := s.setKeys (k :: s.keys)

/-- `tick(key)`: one cycle with a given key sample (40_cycle_and_control R100). The sample is for this tick
alone: the samples announced for later ticks stay, also where the tick faults or is ignored. -/
def tick (s : State) (k : KeySample) : Result :=
  match step (presentKey s k) with
  | .next t => .next (t.setKeys s.keys)
  | .fault r => .fault r
  | .refused r => .refused r

/-! ### The run and its end (00_scope R18; log entry 23) -/

/-- A run: one tick for each key sample. It ends after its last tick, since "a run ends only when the host
stops ticking or when a fault is recorded" and after a fault the rest of the ticks change nothing (R18). -/
def runTicks : List KeySample → State → Result
  | [], s => .next s
  | k :: ks, s =>
    match tick s k with
    | .next t => runTicks ks t
    | .fault r => .fault r
    | .refused r => .refused r

/-- The next fetch is a jump to its own address, the conventional end of a program (R18). -/
def State.atSelfJump (s : State) : Bool :=
  fetchWord s.mem s.pc.toNat == some (encode (.jp (s.pc.setWidth 12)))

/-- How a run stands at a tick boundary. -/
inductive RunStatus where
  /-- More ticks may change the state the program sees. -/
  | running
  /-- At a self-jump with `DT = ST = 0`: the program has come to its conventional end (R18). -/
  | idle
  /-- A fault is recorded: the run has ended as a failure (R18, 60_exceptions R248). -/
  | faulted
  deriving DecidableEq, Repr

/-- The end of a run, as R18 asks a model to define it: a fault, or a self-jump with both timers at 0. -/
def State.runStatus (s : State) : RunStatus :=
  if s.fault.isSome then .faulted
  else if s.atSelfJump && s.dt == 0 && s.st == 0 then .idle
  else .running

/-! ### What the core shows -/

/-- `drain`: the dirty set, and the core with it emptied (43_display R183). -/
def drain (s : State) : Grid × State :=
  (s.display.dirty, s.setDisplay ⟨s.display.px, Grid.filled false⟩)

/-- `read_pixel` (43_display R184). -/
def readPixel (s : State) (c : Col) (r : Row) : Bool := s.display.px.get c r

/-- `st_value` (44_keys_and_timers R222). -/
def stValue (s : State) : Byte := s.st

/-- `tone_stop` (44_keys_and_timers R221). -/
def toneStopOut (s : State) : Bool := s.toneStop

/-- `fault` (60_exceptions R248). -/
def faultOut (s : State) : Option FaultRecord := s.fault

end Sys2Proof.Machine
end

