-- ==== Sys2Proof/Safety.lean ====
section
/-! DEFINITION. The terms the claims are stated in: a safe state, the invariant of the machine, what may
change and what stays, when a fault is due, where a sprite has a set bit. Written from the rules of the
spec, not from the meanings. -/

namespace Sys2Proof.Machine

/-- A state is safe while no fault is recorded: the faulted state is a failure, never a normal end
(60_exceptions R248). -/
def State.Safe (s : State) : Prop := s.fault = none

/-- The invariant: memory in canonical form; `I` below 4096 (10_state R25); `pc` at most 4350 (R24); every
live stack entry an address a call was fetched from (40_cycle_and_control R105); `tone_stop` 0 when a
fault is recorded (60_exceptions R244). -/
structure State.Inv (s : State) : Prop where
  mem : s.mem.wf
  index : s.index.toNat < 4096
  pc : s.pc.toNat ≤ 4350
  stack : ∀ k : Fin 16, k.val < s.sp.val → s.stack[k.val].toNat ≤ 4094
  tone : s.fault.isSome → s.toneStop = false

/-! ### Frames -/

/-- The parts of the state beside the general registers and `pc`. -/
inductive Part where
  | index | stack | dt | st | memory | display | rng | fault
  deriving DecidableEq, Repr

/-- `t` differs from `s` at most in `pc`, in the registers named and in the parts named. -/
structure ChangesOnly (parts : List Part) (regs : Reg → Prop) (s t : State) : Prop where
  regs : ∀ y, ¬ regs y → t.reg y = s.reg y
  index : .index ∉ parts → t.index = s.index
  stack : .stack ∉ parts → t.sp = s.sp ∧ t.stack = s.stack
  dt : .dt ∉ parts → t.dt = s.dt
  st : .st ∉ parts → t.st = s.st
  memory : .memory ∉ parts → ∀ a, t.mem.byteAt a = s.mem.byteAt a
  display : .display ∉ parts → t.display = s.display
  rng : .rng ∉ parts → t.rng = s.rng
  fault : .fault ∉ parts → t.fault = s.fault ∧ t.toneStop = s.toneStop
  keys : t.keys = s.keys
  ticks : t.ticks = s.ticks
  resets : t.resets = s.resets

/-- Memory reads as before outside the `n` bytes from `a` on. -/
def MemoryElsewhere (a n : Nat) (s t : State) : Prop :=
  ∀ b, ¬ (a ≤ b ∧ b < a + n) → t.mem.byteAt b = s.mem.byteAt b

/-- The parts of the state an instruction may write when it raises no fault (10_state R36, R39). -/
def partsWritten : Instr → List Part
  | .cls => [.display]
  | .ret | .call _ => [.stack]
  | .jp _ | .jpV0 _ => []
  | .seImm _ _ | .sneImm _ _ | .seReg _ _ _ | .sneReg _ _ _ => []
  | .ldImm _ _ | .addImm _ _ | .ldReg _ _ | .orReg _ _ | .andReg _ _ | .xorReg _ _ => []
  | .addReg _ _ | .subReg _ _ | .subnReg _ _ | .shr _ _ | .shl _ _ => []
  | .ldI _ | .addI _ | .ldF _ => [.index]
  | .rnd _ _ => [.rng]
  | .drw _ _ _ => [.display]
  | .skp _ | .sknp _ | .ldKey _ | .ldFromDt _ => []
  | .ldDt _ => [.dt]
  | .ldSt _ => [.st]
  | .ldB _ | .dump _ => [.memory]
  | .load _ => []

/-- The registers an instruction may write (10_state R23). -/
def regsWritten : Instr → Reg → Prop
  | .cls, _ | .ret, _ | .jp _, _ | .call _, _ | .jpV0 _, _ | .ldI _, _ => False
  | .seImm _ _, _ | .sneImm _ _, _ | .seReg _ _ _, _ | .sneReg _ _ _, _ => False
  | .ldImm x _, r | .addImm x _, r | .ldReg x _, r | .orReg x _, r | .andReg x _, r => r = x
  | .xorReg x _, r | .rnd x _, r | .ldKey x, r | .ldFromDt x, r => r = x
  | .addReg x _, r | .subReg x _, r | .subnReg x _, r | .shr x _, r | .shl x _, r => r = x ∨ r = 15
  | .drw _ _ _, r => r = 15
  | .skp _, _ | .sknp _, _ | .ldDt _, _ | .ldSt _, _ | .addI _, _ | .ldF _, _ => False
  | .ldB _, _ | .dump _, _ => False
  | .load x, r => r ≤ x

/-! ### When a fault is due -/

/-- The word at `pc` (20_memory R54). -/
def State.wordAtPc (s : State) : Word :=
  wordOfBytes (s.mem.byteAt s.pc.toNat) (s.mem.byteAt (s.pc.toNat + 1))

/-- The core is not faulted and the next cycle fetches and decodes the instruction (R100 steps 1, 2). -/
def Fetches (s : State) (i : Instr) : Prop :=
  s.fault = none ∧ s.pc.toNat + 1 < 4096 ∧ decode s.wordAtPc = some i

/-- The bytes of data memory an instruction touches from `I` on (20_memory R59). -/
def dataBytes : Instr → Nat
  | .drw _ _ n => n.toNat
  | .ldB _ => 3
  | .dump x | .load x => x.val + 1
  | .cls | .ret | .jp _ | .call _ | .jpV0 _ | .ldI _ | .addI _ | .ldF _ => 0
  | .seImm _ _ | .sneImm _ _ | .seReg _ _ _ | .sneReg _ _ _ => 0
  | .ldImm _ _ | .addImm _ _ | .ldReg _ _ | .orReg _ _ | .andReg _ _ | .xorReg _ _ => 0
  | .addReg _ _ | .subReg _ _ | .subnReg _ _ | .shr _ _ | .shl _ _ | .rnd _ _ => 0
  | .skp _ | .sknp _ | .ldKey _ | .ldFromDt _ | .ldDt _ | .ldSt _ => 0

/-- A data access of `n` bytes from `I` on leaves memory (42_index_and_memory R167, R168). -/
def State.accessOut (s : State) (n : Nat) : Prop := n ≠ 0 ∧ 4096 < s.index.toNat + n

/-- The record of a fault of an instruction, for its word (60_exceptions R240). -/
def State.withFault (s : State) (cause : FaultCause) (opcode : Option Word) (addr : Option Nat) :
    State :=
  { s with fault := some ⟨cause, opcode, s.pc, addr⟩, toneStop := false }

/-- The table of 60_exceptions R240 for a core that is not faulted: the cycle raises a fault, with the
record `r`. -/
inductive FaultDue (s : State) : FaultRecord → Prop where
  | fetchOutOfRange : 4095 ≤ s.pc.toNat → FaultDue s ⟨.fetchOutOfRange, none, s.pc, some s.pc.toNat⟩
  | decodeFault : s.pc.toNat < 4095 → decode s.wordAtPc = none →
      FaultDue s ⟨.decodeFault, some s.wordAtPc, s.pc, none⟩
  | stackOverflow (nnn : Addr12) : s.pc.toNat < 4095 → decode s.wordAtPc = some (.call nnn) →
      s.sp.val = 16 → FaultDue s ⟨.stackOverflow, some s.wordAtPc, s.pc, none⟩
  | stackUnderflow : s.pc.toNat < 4095 → decode s.wordAtPc = some .ret → s.sp.val = 0 →
      FaultDue s ⟨.stackUnderflow, some s.wordAtPc, s.pc, none⟩
  | memOutOfRange (i : Instr) : s.pc.toNat < 4095 → decode s.wordAtPc = some i →
      s.accessOut (dataBytes i) →
      FaultDue s ⟨.memOutOfRange, some s.wordAtPc, s.pc, some (max s.index.toNat 4096)⟩

/-! ### Sprites -/

/-- The pixel, and the dirty mark, of a cell (10_state R31, R32). -/
def State.px (s : State) (c : Col) (r : Row) : Bool := s.display.px.get c r

/-- The dirty mark of a cell (10_state R32). -/
def State.dirty (s : State) (c : Col) (r : Row) : Bool := s.display.dirty.get c r

/-- The source bit a sprite of `n` rows drawn from column `sx`, row `sy` has over the cell of column `c`,
row `r`: the cell's offsets from the start, counted around the edges, name the row byte and its bit, most
significant first; outside the sprite there is none (43_display R182). -/
def sourceBit (rows : Nat → Byte) (n sx sy : Nat) (c : Col) (r : Row) : Bool :=
  let j := (c.val + 64 - sx) % 64
  let k := (r.val + 32 - sy) % 32
  decide (k < n) && decide (j < 8) && (rows k).getLsbD (7 - j)

/-- The source bit that `Dxyn` has over a cell in a state: the coordinates are the bytes of `Vx` and `Vy`
modulo the display's size, the row bytes lie in memory from `I` on (43_display R190). -/
def State.drawBit (s : State) (x y : Reg) (n : Nibble) (c : Col) (r : Row) : Bool :=
  sourceBit (fun k => s.mem.byteAt (s.index.toNat + k)) n.toNat
    ((s.reg x).toNat % 64) ((s.reg y).toNat % 32) c r

end Sys2Proof.Machine
end

