-- ==== Sys2Proof/Certificates/Slice0/Obligations.lean ====
section
/-! DEFINITION. The statements about the machine, in the terms of Safety.lean. Each says which rule of the
spec it formalises; where a clause rests on a decision the spec marks as its own, its docstring names the
decision. -/

open Sys2Proof Sys2Proof.Machine

/-! ### Encoding and decoding (30_encoding) -/

/-- Every instruction, with every operand at every value, is read back from its own word (R71, R78). -/
def Obligations.EncodedInstrDecodesToItself : Prop :=
  ∀ i : Instr, decode (encode i) = some i

/-- A word that decodes is the word of the instruction it decodes to: each instruction has one word (R70,
R71; the ignored fields are kept in the instruction, log entry 17). -/
def Obligations.DecodedWordIsItsEncoding : Prop :=
  ∀ (op : Word) (i : Instr), decode op = some i → encode i = op

/-- A word decodes to an instruction of a row exactly when it meets the row's mask and pattern, and to none
exactly when it meets no row (R78, R79). -/
def Obligations.DecodingFollowsTheTable : Prop :=
  (∀ (op : Word) (i : Instr), decode op = some i → (rowOf i).accepts op = true) ∧
  (∀ op : Word, decode op = none ↔ ∀ r ∈ opcodeTable, r.accepts op = false)

/-- No word meets two rows of the opcode table ("The rows are disjoint", R78). -/
def Obligations.OpcodeRowsAreDisjoint : Prop :=
  opcodeTable.Pairwise fun r q => ∀ op : Word, ¬ (r.accepts op = true ∧ q.accepts op = true)

/-- The illegal words, class by class, as R79 lists them. -/
def Obligations.IllegalWordsAreTheListedOnes : Prop :=
  ∀ op : Word, decode op = none ↔
    (op.toNat / 4096 = 0x0 ∧ op ≠ 0x00E0#16 ∧ op ≠ 0x00EE#16) ∨
    (op.toNat / 4096 = 0x8 ∧ op.toNat % 16 ∈ [0x8, 0x9, 0xA, 0xB, 0xC, 0xD, 0xF]) ∨
    (op.toNat / 4096 = 0xE ∧ op.toNat % 256 ∉ [0x9E, 0xA1]) ∨
    (op.toNat / 4096 = 0xF ∧
      op.toNat % 256 ∉ [0x07, 0x0A, 0x15, 0x18, 0x1E, 0x29, 0x33, 0x55, 0x65])

/-- Words the spec writes out beside the instructions they stand for (95_test_vectors, part 3). -/
def Obligations.WrittenOutWordsDecode : Prop :=
  decode 0x00E0#16 = some .cls ∧ decode 0x2210#16 = some (.call 0x210) ∧
  decode 0x8104#16 = some (.addReg 1 0) ∧ decode 0xD234#16 = some (.drw 2 3 4) ∧
  decode 0xE1A1#16 = some (.sknp 1) ∧ decode 0xF265#16 = some (.load 2) ∧
  decode 0x0000#16 = none ∧ decode 0x8128#16 = none

/-- The fetch is big-endian and needs both bytes inside memory (20_memory R54, R58). -/
def Obligations.FetchReadsTwoBytesBigEndian : Prop :=
  ∀ (m : Memory) (a : Nat),
    (a + 1 < 4096 → ∃ op, fetchWord m a = some op ∧
      op.toNat = (m.byteAt a).toNat * 256 + (m.byteAt (a + 1)).toNat) ∧
    (4095 ≤ a → fetchWord m a = none)

/-! ### The cycle and the faults (40_cycle_and_control, 60_exceptions) -/

/-- A step runs the decoded instruction: where the two bytes at `pc` decode to `i` and no fault is recorded,
step is exec of `i`, and after it the end of the cycle, which a faulting instruction skips (R100). -/
def Obligations.StepRunsTheDecodedInstruction : Prop :=
  ∀ (s : State) (i : Instr), s.fault = none → s.pc.toNat + 1 < 4096 →
    decodeBytes (s.mem.byteAt s.pc.toNat) (s.mem.byteAt (s.pc.toNat + 1)) = some i →
    step s = match exec i s with
      | .next t => .next t.afterExec
      | .fault r => .fault r
      | .refused r => .refused r

/-- What the end of a completed cycle does after the instruction's effect `t`: both timers one lower, never
below 0, `tone_stop` exactly when `ST` goes from 1 to 0, everything else as the instruction left it, the
cycle's key sample used up (R100 steps 5 to 7). -/
def Obligations.CycleEndsWithTimersAndTone : Prop :=
  ∀ (s t : State) (i : Instr), Fetches s i → exec i s = .next t → t.fault = none →
    ∃ u, step s = .next u ∧ u.dt.toNat = t.dt.toNat - 1 ∧ u.st.toNat = t.st.toNat - 1 ∧
      (u.toneStop = true ↔ t.st.toNat = 1) ∧
      u.v = t.v ∧ u.index = t.index ∧ u.pc = t.pc ∧ u.sp = t.sp ∧ u.stack = t.stack ∧
      u.mem = t.mem ∧ u.display = t.display ∧ u.rng = t.rng ∧ u.fault = none ∧
      u.keys = s.keys.tail ∧ u.ticks = s.ticks + 1 ∧ u.resets = s.resets

/-- Both timers count down in every cycle that completes, whatever the instruction; a timer the instruction
writes counts down from the new value; a faulting cycle and a tick of a faulted core leave them (44 R220,
its cycles without a fault by decision D28). -/
def Obligations.TimersCountEveryCompletedCycle : Prop :=
  (∀ (s u : State) (i : Instr), Fetches s i → step s = .next u → u.fault = none →
    (u.dt.toNat = (match i with | .ldDt x => s.reg x | _ => s.dt).toNat - 1) ∧
    (u.st.toNat = (match i with | .ldSt x => s.reg x | _ => s.st).toNat - 1)) ∧
  (∀ s u : State, step s = .next u → u.fault ≠ none → u.dt = s.dt ∧ u.st = s.st)

/-- `tone_stop` is 1 after a cycle exactly when its decrement took `ST` from 1 to 0: not when `ST` was 0
already, not when `Fx18` wrote 0, and not in a cycle that faults (44 R221, 60 R244). -/
def Obligations.ToneStopOnlyOnOneToZero : Prop :=
  (∀ (s u : State) (i : Instr), Fetches s i → step s = .next u → u.fault = none →
    (u.toneStop = true ↔ (match i with | .ldSt x => s.reg x | _ => s.st) = 1)) ∧
  (∀ s u : State, s.fault = none → step s = .next u → u.fault ≠ none → u.toneStop = false)

/-- A fetch faults exactly when its second byte would lie outside memory, with the record of the table;
every fetch below that is performed, at any address and any alignment (60 R245, 20 R58; decision D13). -/
def Obligations.FetchFaultsOnlyPastTheEnd : Prop :=
  ∀ s : State, s.fault = none →
    (4095 ≤ s.pc.toNat →
      step s = .next (s.withFault .fetchOutOfRange none (some s.pc.toNat))) ∧
    (s.pc.toNat < 4095 → ∀ u r, step s = .next u → u.fault = some r → r.cause ≠ .fetchOutOfRange)

/-- An illegal word that is fetched raises the decode fault, with the word and its address, and nothing else
of the state changes but the tone output, which is 0; a word that decodes never raises it (60 R241). The
record and the precise entry are decision D22 (log entry 1); that the model's own fields stay is log entry
14. -/
def Obligations.IllegalWordRaisesDecodeFault : Prop :=
  ∀ s : State, s.fault = none → s.pc.toNat < 4095 →
    (decode s.wordAtPc = none →
      step s = .next (s.withFault .decodeFault (some s.wordAtPc) none)) ∧
    (decode s.wordAtPc ≠ none → ∀ u r, step s = .next u → u.fault = some r → r.cause ≠ .decodeFault)

/-- A tick of a faulted core changes nothing, and the record stays (60 R248, 40 R101). -/
def Obligations.FaultedCoreIgnoresTicks : Prop :=
  ∀ s : State, s.fault ≠ none → step s = .next s

/-- Faults are precise: of a faulting cycle nothing is kept but the record, which names the address of the
instruction, and `tone_stop` is 0 (60 R244; decision D22). -/
def Obligations.FaultsKeepNoWrite : Prop :=
  ∀ s u : State, s.fault = none → step s = .next u → u.fault ≠ none →
    ∃ r, u = { s with fault := some r, toneStop := false } ∧ r.pc = s.pc

/-- When a cycle faults and with which record: exactly in the cases of the table of faults, for every
instruction and state (60 R240, R247; decisions D3, D12, D13, D22, D23). -/
def Obligations.FaultsExactlyWhenDue : Prop :=
  ∀ s u : State, s.fault = none → step s = .next u → ∀ r, u.fault = some r ↔ FaultDue s r

/-- Every tick has a next state, from every state: no instruction and no operand stops the model
(00_scope R19). -/
def Obligations.EveryTickHasANextState : Prop :=
  ∀ s : State, ∃ u, step s = .next u

/-! ### Invariants -/

/-- Every step keeps the invariant: memory in canonical form, `I` below 4096, `pc` at most 4350, every live
stack entry at most 4094, `tone_stop` 0 with a fault (10_state R24, R25; 40 R105; 60 R244). The canonical form
of memory is no rule of the spec but the model's own choice (log entry 9). -/
def Obligations.StepKeepsInvariant : Prop :=
  ∀ s u : State, s.Inv → step s = .next u → u.Inv

/-- The invariant holds right after reset. The canonical form of memory is the model's own choice (log entry
9), the reset values are the spec's decision D24 (log entry 8). -/
def Obligations.ResetMeetsInvariant : Prop :=
  State.reset.Inv

/-- What the environment does, ticks and runs among it, keeps the invariant (60 R256). Three things in it
are the model's own choices: the canonical form of memory (log entry 9), the announcing of key samples to a
queue (log entry 2), and when a load is accepted (log entry 16). -/
def Obligations.HostOperationsKeepInvariant : Prop :=
  ∀ s : State, s.Inv →
    (hostReset s).Inv ∧ (∀ seed, (reseed s seed).Inv) ∧ (∀ k, (presentKey s k).Inv) ∧
    (drain s).2.Inv ∧ (∀ bytes u, loadRom s bytes = .next u → u.Inv) ∧
    (∀ k u, tick s k = .next u → u.Inv) ∧ (∀ ks u, runTicks ks s = .next u → u.Inv)

/-- Who may write what: beside `pc`, an instruction that raises no fault changes only the parts and the
registers the spec's tables name for it (10_state R23, R36, R39), and of memory only the `dataBytes i` bytes
from `I` on, which is where `Fx33` and `Fx55` store (42 R164, R165). -/
def Obligations.InstructionsWriteOnlyTheirState : Prop :=
  ∀ (i : Instr) (s t : State), exec i s = .next t → s.fault = none → t.fault = none →
    ChangesOnly (partsWritten i) (regsWritten i) s t ∧
    MemoryElsewhere s.index.toNat (dataBytes i) s t

/-! ### Return, jump, call, skips (40_cycle_and_control) -/

/-- `00EE`: with a live entry it resumes at that entry plus 2 and the entry stays; with none it faults (R105;
the stack's convention is decision D4, the fault decision D3). -/
def Obligations.ReturnPopsOrUnderflows : Prop :=
  ∀ s : State,
    (∀ k : Fin 16, k.val + 1 = s.sp.val →
      ∃ t, exec .ret s = .next t ∧ t.pc = s.stack[k.val] + 2 ∧ t.sp.val = k.val ∧
        t.stack = s.stack ∧ ChangesOnly [.stack] (fun _ => False) s t) ∧
    (s.sp.val = 0 → exec .ret s = .next (s.withFault .stackUnderflow (some 0x00EE#16) none))

/-- `2nnn`: with room it pushes its own address and goes to `nnn`; with a full stack it faults and pushes
nothing (R107; the stack's convention is decision D4, the fault decision D3). -/
def Obligations.CallPushesItsOwnAddressOrOverflows : Prop :=
  ∀ (s : State) (nnn : Addr12),
    (s.sp.val < 16 → ∃ t, exec (.call nnn) s = .next t ∧ t.pc.toNat = nnn.toNat ∧
      t.sp.val = s.sp.val + 1 ∧
      (∀ k : Fin 16, t.stack[k.val] = if k.val = s.sp.val then s.pc else s.stack[k.val]) ∧
      ChangesOnly [.stack] (fun _ => False) s t) ∧
    (s.sp.val = 16 →
      exec (.call nnn) s = .next (s.withFault .stackOverflow (some (encode (.call nnn))) none))

/-- A return after a call, with the same stack in between, resumes after the call and leaves the stack as
deep as before the call (R114). -/
def Obligations.ReturnResumesAfterTheCall : Prop :=
  ∀ (s t u : State) (nnn : Addr12), s.sp.val < 16 → exec (.call nnn) s = .next t →
    u.sp = t.sp → u.stack = t.stack →
    ∃ w, exec .ret u = .next w ∧ w.pc = s.pc + 2 ∧ w.sp = s.sp

/-- `1nnn` goes to `nnn` and changes nothing else; no target faults in this cycle (R106). -/
def Obligations.JumpGoesToItsAddress : Prop :=
  ∀ (s : State) (nnn : Addr12),
    ∃ t, exec (.jp nnn) s = .next t ∧ t.pc.toNat = nnn.toNat ∧
      ChangesOnly [] (fun _ => False) s t

/-- `Bnnn` goes to `V0 + nnn`, not reduced modulo 4096 (R108; decision D34). -/
def Obligations.OffsetJumpAddsV0 : Prop :=
  ∀ (s : State) (nnn : Addr12),
    ∃ t, exec (.jpV0 nnn) s = .next t ∧ t.pc.toNat = (s.reg 0).toNat + nnn.toNat ∧
      ChangesOnly [] (fun _ => False) s t

/-- The two skips on an immediate: `pc + 4` when the condition holds, else `pc + 2`; nothing else changes
(R109, R110). -/
def Obligations.ImmediateSkipsCompareTheRegister : Prop :=
  ∀ (s : State) (x : Reg) (kk : Byte),
    (∃ t, exec (.seImm x kk) s = .next t ∧
      t.pc = s.pc + (if s.reg x = kk then 4 else 2) ∧ ChangesOnly [] (fun _ => False) s t) ∧
    (∃ t, exec (.sneImm x kk) s = .next t ∧
      t.pc = s.pc + (if s.reg x ≠ kk then 4 else 2) ∧ ChangesOnly [] (fun _ => False) s t)

/-- The two skips on two registers, whatever the low nibble of the word (R111, R112). -/
def Obligations.RegisterSkipsCompareTwoRegisters : Prop :=
  ∀ (s : State) (x y : Reg) (n : Nibble),
    (∃ t, exec (.seReg x y n) s = .next t ∧
      t.pc = s.pc + (if s.reg x = s.reg y then 4 else 2) ∧ ChangesOnly [] (fun _ => False) s t) ∧
    (∃ t, exec (.sneReg x y n) s = .next t ∧
      t.pc = s.pc + (if s.reg x ≠ s.reg y then 4 else 2) ∧ ChangesOnly [] (fun _ => False) s t)

/-! ### Load, arithmetic, logic, shift, random (41_alu) -/

/-- `6xkk` and `7xkk`: the sum wraps modulo 256 and no flag is written (R132, R133). -/
def Obligations.ImmediateLoadAndAdd : Prop :=
  ∀ (s : State) (x : Reg) (kk : Byte),
    (∃ t, exec (.ldImm x kk) s = .next t ∧ t.reg x = kk ∧ t.pc = s.pc + 2 ∧
      ChangesOnly [] (· = x) s t) ∧
    (∃ t, exec (.addImm x kk) s = .next t ∧
      (t.reg x).toNat = ((s.reg x).toNat + kk.toNat) % 256 ∧ t.pc = s.pc + 2 ∧
      ChangesOnly [] (· = x) s t)

/-- `8xy0` to `8xy3`: copy, OR, AND, XOR bit by bit, with no flag side effect (R134 to R137). -/
def Obligations.CopyAndLogicWriteOnlyTheirRegister : Prop :=
  ∀ (s : State) (x y : Reg),
    (∃ t, exec (.ldReg x y) s = .next t ∧ t.reg x = s.reg y ∧ t.pc = s.pc + 2 ∧
      ChangesOnly [] (· = x) s t) ∧
    (∃ t, exec (.orReg x y) s = .next t ∧
      (∀ b < 8, (t.reg x).getLsbD b = ((s.reg x).getLsbD b || (s.reg y).getLsbD b)) ∧
      t.pc = s.pc + 2 ∧ ChangesOnly [] (· = x) s t) ∧
    (∃ t, exec (.andReg x y) s = .next t ∧
      (∀ b < 8, (t.reg x).getLsbD b = ((s.reg x).getLsbD b && (s.reg y).getLsbD b)) ∧
      t.pc = s.pc + 2 ∧ ChangesOnly [] (· = x) s t) ∧
    (∃ t, exec (.xorReg x y) s = .next t ∧
      (∀ b < 8, (t.reg x).getLsbD b = ((s.reg x).getLsbD b ^^ (s.reg y).getLsbD b)) ∧
      t.pc = s.pc + 2 ∧ ChangesOnly [] (· = x) s t)

/-- `8xy4`: the sum modulo 256, then `VF` = 1 exactly when the exact sum exceeds 255 (R138). That the flag
stays when `x` is 15, and that operands are the values before, is the spec's decision D9 (log entry 10). -/
def Obligations.AddSetsCarry : Prop :=
  ∀ (s : State) (x y : Reg),
    ∃ t, exec (.addReg x y) s = .next t ∧
      (t.reg 15).toNat = (if (s.reg x).toNat + (s.reg y).toNat > 255 then 1 else 0) ∧
      (x ≠ 15 → (t.reg x).toNat = ((s.reg x).toNat + (s.reg y).toNat) % 256) ∧
      t.pc = s.pc + 2 ∧ ChangesOnly [] (fun r => r = x ∨ r = 15) s t

/-- `8xy5` and `8xy7`: `VF` = 1 exactly when the minuend is strictly greater, then the difference modulo 256
(R139, R141). That the difference stays when `x` is 15 is the spec's decision D9 (log entry 10). -/
def Obligations.SubtractionsSetStrictGreater : Prop :=
  ∀ (s : State) (x y : Reg),
    (∃ t, exec (.subReg x y) s = .next t ∧
      (t.reg x).toNat = (256 + (s.reg x).toNat - (s.reg y).toNat) % 256 ∧
      (x ≠ 15 → (t.reg 15).toNat = (if (s.reg x).toNat > (s.reg y).toNat then 1 else 0)) ∧
      t.pc = s.pc + 2 ∧ ChangesOnly [] (fun r => r = x ∨ r = 15) s t) ∧
    (∃ t, exec (.subnReg x y) s = .next t ∧
      (t.reg x).toNat = (256 + (s.reg y).toNat - (s.reg x).toNat) % 256 ∧
      (x ≠ 15 → (t.reg 15).toNat = (if (s.reg y).toNat > (s.reg x).toNat then 1 else 0)) ∧
      t.pc = s.pc + 2 ∧ ChangesOnly [] (fun r => r = x ∨ r = 15) s t)

/-- `8xy6` and `8xyE`: `VF` = the bit shifted out, then `Vx` halved, or doubled modulo 256; `y` is ignored
(R140, R142). That the result stays when `x` is 15 is the spec's decision D9 (log entry 10). -/
def Obligations.ShiftsSetTheBitShiftedOut : Prop :=
  ∀ (s : State) (x y : Reg),
    (∃ t, exec (.shr x y) s = .next t ∧ (t.reg x).toNat = (s.reg x).toNat / 2 ∧
      (x ≠ 15 → (t.reg 15).toNat = (s.reg x).toNat % 2) ∧
      t.pc = s.pc + 2 ∧ ChangesOnly [] (fun r => r = x ∨ r = 15) s t) ∧
    (∃ t, exec (.shl x y) s = .next t ∧ (t.reg x).toNat = 2 * (s.reg x).toNat % 256 ∧
      (x ≠ 15 → (t.reg 15).toNat = (s.reg x).toNat / 128) ∧
      t.pc = s.pc + 2 ∧ ChangesOnly [] (fun r => r = x ∨ r = 15) s t)

/-- `Cxkk`: the next byte of the random source under the mask; exactly one byte is drawn, whatever the mask,
and no other instruction draws one. It holds for every value of the free byte (R143, 44 R226; the source as
a seed and a count is log entry 3). -/
def Obligations.RandomDrawsOneMaskedByte : Prop :=
  (∀ (s : State) (x : Reg) (kk : Byte),
    ∃ t, exec (.rnd x kk) s = .next t ∧ t.reg x = kk &&& s.randomByte ∧
      (∀ b < 8, kk.getLsbD b = false → (t.reg x).getLsbD b = false) ∧
      t.rng = ⟨s.rng.seed, s.rng.draws + 1⟩ ∧ t.pc = s.pc + 2 ∧
      ChangesOnly [.rng] (· = x) s t) ∧
  (∀ (i : Instr) (s t : State), exec i s = .next t → (∀ x kk, i ≠ .rnd x kk) → t.rng = s.rng)

/-- Reseeding with the same seed before identical masked draws yields identical results, whatever the two
states were (44 R227). -/
def Obligations.SameSeedSameDraws : Prop :=
  ∀ (s s' t t' : State) (seed : Nat) (x : Reg) (kk : Byte),
    exec (.rnd x kk) (reseed s seed) = .next t → exec (.rnd x kk) (reseed s' seed) = .next t' →
      t.reg x = t'.reg x ∧ t.rng = t'.rng ∧ t.randomByte = t'.randomByte

/-! ### Index and memory (42_index_and_memory) -/

/-- `Annn`: `I` is the address as it stands (R160). -/
def Obligations.LoadIndexTakesTheAddress : Prop :=
  ∀ (s : State) (nnn : Addr12),
    ∃ t, exec (.ldI nnn) s = .next t ∧ t.index.toNat = nnn.toNat ∧ t.pc = s.pc + 2 ∧
      ChangesOnly [.index] (fun _ => False) s t

/-- `Fx1E` and `Fx29`: `I + Vx` modulo 4096 with no flag (R161; decision D11), and five times the whole byte
(R163; decision D16). -/
def Obligations.AddIndexAndFontPointer : Prop :=
  ∀ (s : State) (x : Reg),
    (∃ t, exec (.addI x) s = .next t ∧
      t.index.toNat = (s.index.toNat + (s.reg x).toNat) % 4096 ∧ t.pc = s.pc + 2 ∧
      ChangesOnly [.index] (fun _ => False) s t) ∧
    (∃ t, exec (.ldF x) s = .next t ∧ t.index.toNat = 5 * (s.reg x).toNat ∧ t.pc = s.pc + 2 ∧
      ChangesOnly [.index] (fun _ => False) s t)

/-- `Fx33`: the three decimal digits to `mem[I..I+2]` and no other byte, or, where that leaves memory, a
fault and no byte (R164; the fault is decision D12, `I` unchanged decision D11). -/
def Obligations.BcdStoresThreeDigitsOrFaults : Prop :=
  ∀ (s : State) (x : Reg),
    (s.index.toNat + 2 < 4096 → ∃ t, exec (.ldB x) s = .next t ∧
      (t.mem.byteAt s.index.toNat).toNat = (s.reg x).toNat / 100 ∧
      (t.mem.byteAt (s.index.toNat + 1)).toNat = (s.reg x).toNat / 10 % 10 ∧
      (t.mem.byteAt (s.index.toNat + 2)).toNat = (s.reg x).toNat % 10 ∧
      MemoryElsewhere s.index.toNat 3 s t ∧ t.pc = s.pc + 2 ∧
      ChangesOnly [.memory] (fun _ => False) s t) ∧
    (4096 ≤ s.index.toNat + 2 → exec (.ldB x) s =
      .next (s.withFault .memOutOfRange (some (encode (.ldB x))) (some (max s.index.toNat 4096))))

/-- `Fx55`: `V0` to `Vx` to `mem[I..I+x]` and no other byte, or a fault and no byte (R165; the fault is
decision D12, `I` unchanged decision D11). -/
def Obligations.DumpStoresRegistersOrFaults : Prop :=
  ∀ (s : State) (x : Reg),
    (s.index.toNat + x.val < 4096 → ∃ t, exec (.dump x) s = .next t ∧
      (∀ k : Reg, k ≤ x → t.mem.byteAt (s.index.toNat + k.val) = s.reg k) ∧
      MemoryElsewhere s.index.toNat (x.val + 1) s t ∧ t.pc = s.pc + 2 ∧
      ChangesOnly [.memory] (fun _ => False) s t) ∧
    (4096 ≤ s.index.toNat + x.val → exec (.dump x) s =
      .next (s.withFault .memOutOfRange (some (encode (.dump x))) (some (max s.index.toNat 4096))))

/-- `Fx65`: `mem[I..I+x]` to `V0` to `Vx` and no other register, or a fault and no register (R166; the fault
is decision D12, `I` unchanged decision D11). -/
def Obligations.LoadReadsRegistersOrFaults : Prop :=
  ∀ (s : State) (x : Reg),
    (s.index.toNat + x.val < 4096 → ∃ t, exec (.load x) s = .next t ∧
      (∀ k : Reg, k ≤ x → t.reg k = s.mem.byteAt (s.index.toNat + k.val)) ∧ t.pc = s.pc + 2 ∧
      ChangesOnly [] (fun k => k ≤ x) s t) ∧
    (4096 ≤ s.index.toNat + x.val → exec (.load x) s =
      .next (s.withFault .memOutOfRange (some (encode (.load x))) (some (max s.index.toNat 4096))))

/-- Round trip: registers dumped and then loaded from the same place are the registers dumped, whatever
happened to the registers in between ("reproduces the original register values exactly", R162, R166). -/
def Obligations.DumpThenLoadRestoresRegisters : Prop :=
  ∀ (s t u : State) (x : Reg), s.index.toNat + x.val < 4096 → exec (.dump x) s = .next t →
    u.mem = t.mem → u.index = t.index →
    ∃ w, exec (.load x) u = .next w ∧ ∀ k : Reg, k ≤ x → w.reg k = s.reg k

/-- A byte access inside memory reads what was last written there, and a write leaves every other address;
outside memory it is turned away with its address, never wrapped (20 R56, R57, R60; decision D12). -/
def Obligations.ByteAccessReadsLastWrite : Prop :=
  ∀ (m : Memory) (a b : Nat) (w : Byte),
    (a < 4096 → ∃ m', memWrite m a w = .ok m' ∧ memRead m' a = .ok w ∧
      (b ≠ a → memRead m' b = memRead m b)) ∧
    (4096 ≤ a → memWrite m a w = .error a ∧ memRead m a = .error a)

/-- A store is seen by the very next fetch: registers dumped over the next instruction are the next
instruction, with no barrier (20 R63; decision D30). -/
def Obligations.StoreIsSeenByTheNextFetch : Prop :=
  ∀ (s : State) (x : Reg) (i : Instr), Fetches s (.dump x) → 1 ≤ x.val →
    s.index = s.pc + 2 → s.pc.toNat + 2 + x.val < 4096 →
    decodeBytes (s.reg 0) (s.reg 1) = some i →
    ∃ u, step s = .next u ∧ Fetches u i

/-! ### Display (43_display) -/

/-- `00E0`: every pixel 0 and every cell dirty, whatever they were; no flag (R185, R181). -/
def Obligations.ClearBlanksAndMarksEveryCell : Prop :=
  ∀ s : State, ∃ t, exec .cls s = .next t ∧ (∀ c r, t.px c r = false) ∧ (∀ c r, t.dirty c r = true) ∧
    t.pc = s.pc + 2 ∧ ChangesOnly [.display] (fun _ => False) s t

/-- `Dxyn`, cell by cell: the loops of the compositor invert and mark dirty exactly the cells under a set
source bit, wrapping in both directions, and `VF` is 1 exactly when a set source bit is over a set pixel;
where a row byte lies outside memory it faults and draws nothing (R190, R182, R191; latched coordinates are
decision D9, `n` = 0 decision D19, the fault decision D12). -/
def Obligations.DrawInvertsCellsUnderSourceBits : Prop :=
  ∀ (s : State) (x y : Reg) (n : Nibble),
    (¬ s.accessOut n.toNat → ∃ t, exec (.drw x y n) s = .next t ∧
      (∀ c r, t.px c r = (s.px c r ^^ s.drawBit x y n c r)) ∧
      (∀ c r, t.dirty c r = (s.dirty c r || s.drawBit x y n c r)) ∧
      ((t.reg 15 = 1 ∧ ∃ c r, s.drawBit x y n c r = true ∧ s.px c r = true) ∨
        (t.reg 15 = 0 ∧ ∀ c r, s.drawBit x y n c r = true → s.px c r = false)) ∧
      t.pc = s.pc + 2 ∧ ChangesOnly [.display] (· = 15) s t) ∧
    (s.accessOut n.toNat → exec (.drw x y n) s =
      .next (s.withFault .memOutOfRange (some (encode (.drw x y n)))
        (some (max s.index.toNat 4096))))

/-- Drawing the same sprite twice at the same place restores the pixels, and ends with `VF` = 1 exactly when
the sprite has a set bit over a cell that was clear at the start (R190 corner case (f), which speaks of such
cells only: log entry 21). -/
def Obligations.DrawingTwiceRestoresPixels : Prop :=
  ∀ (s t u : State) (x y : Reg) (n : Nibble), ¬ s.accessOut n.toNat →
    exec (.drw x y n) s = .next t →
    u.display = t.display → u.mem = s.mem → u.index = s.index → u.reg x = s.reg x →
    u.reg y = s.reg y →
    ∃ w, exec (.drw x y n) u = .next w ∧ (∀ c r, w.px c r = s.px c r) ∧
      (w.reg 15 = 1 ↔ ∃ c r, s.drawBit x y n c r = true ∧ s.px c r = false)

/-- The drain returns the dirty set, empties it and changes nothing else (R183). -/
def Obligations.DrainReturnsAndEmptiesTheDirtySet : Prop :=
  ∀ s : State, (∀ c r, (drain s).1.get c r = s.dirty c r) ∧
    (∀ c r, (drain s).2.dirty c r = false) ∧ (∀ c r, (drain s).2.px c r = s.px c r) ∧
    (drain s).2.pc = s.pc ∧ ChangesOnly [.display] (fun _ => False) s (drain s).2

/-! ### Keys and timers (44_keys_and_timers) -/

/-- `Ex9E` and `ExA1`, for every key sample of the cycle: the whole byte is compared, no key equals nothing,
and the second skip is the exact complement of the first (R211, R212; decision D17). -/
def Obligations.KeySkipsCompareTheWholeByte : Prop :=
  ∀ (s : State) (x : Reg) (k : KeySample), s.key = k →
    (∃ t, exec (.skp x) s = .next t ∧
      t.pc = s.pc + (if k.map Fin.val = some (s.reg x).toNat then 4 else 2) ∧
      ChangesOnly [] (fun _ => False) s t) ∧
    (∃ t, exec (.sknp x) s = .next t ∧
      t.pc = s.pc + (if k.map Fin.val = some (s.reg x).toNat then 2 else 4) ∧
      ChangesOnly [] (fun _ => False) s t)

/-- `Fx0A`: with a key it stores its number and goes on; with none the same instruction is fetched again and
the cycle still ends as every cycle does, so the timers run while it waits (R213; decision D18). -/
def Obligations.WaitForKeyHoldsOrStores : Prop :=
  ∀ (s : State) (x : Reg),
    (∀ k : Key, s.key = some k → ∃ t, exec (.ldKey x) s = .next t ∧
      (t.reg x).toNat = k.val ∧ t.pc = s.pc + 2 ∧ ChangesOnly [] (· = x) s t) ∧
    (s.key = none → ∃ t, exec (.ldKey x) s = .next t ∧ t.pc = s.pc ∧
      ChangesOnly [] (fun _ => False) s t) ∧
    (s.key = none → Fetches s (.ldKey x) → ∃ u, step s = .next u ∧ u.pc = s.pc ∧ u.v = s.v ∧
      u.dt.toNat = s.dt.toNat - 1 ∧ u.st.toNat = s.st.toNat - 1 ∧
      (u.toneStop = true ↔ s.st.toNat = 1) ∧ Fetches u (.ldKey x))

/-- A tick with a key sample is the step of the same state with that sample as its key, whatever was
announced before; the three instructions that read the key read that sample (R210 to R213). That announced
samples are a queue, which the tick leaves as it was, is the model's own form (log entry 2). -/
def Obligations.TickPresentsItsKeySample : Prop :=
  ∀ (s : State) (k : KeySample),
    (presentKey s k).key = k ∧ presentKey s k = { s with keys := k :: s.keys } ∧
    (∃ u, step (presentKey s k) = .next u ∧ tick s k = .next { u with keys := s.keys } ∧
      (u.fault = none → u.keys = s.keys)) ∧
    (∀ x, Fetches s (.skp x) → ∃ u, tick s k = .next u ∧ u.v = s.v ∧
      u.pc = s.pc + (if k.map Fin.val = some (s.reg x).toNat then 4 else 2)) ∧
    (∀ x, Fetches s (.sknp x) → ∃ u, tick s k = .next u ∧ u.v = s.v ∧
      u.pc = s.pc + (if k.map Fin.val = some (s.reg x).toNat then 2 else 4)) ∧
    (∀ x, Fetches s (.ldKey x) → ∃ u, tick s k = .next u ∧
      match k with
      | none => u.pc = s.pc ∧ u.v = s.v
      | some key => u.pc = s.pc + 2 ∧ (u.reg x).toNat = key.val ∧ ∀ y, y ≠ x → u.reg y = s.reg y)

/-- `Fx07` copies the timer as it was before this cycle's decrement; after the cycle the timer is one lower
(R214). -/
def Obligations.ReadTimerCopiesBeforeTheDecrement : Prop :=
  ∀ (s : State) (x : Reg),
    (∃ t, exec (.ldFromDt x) s = .next t ∧ t.reg x = s.dt ∧ t.pc = s.pc + 2 ∧
      ChangesOnly [] (· = x) s t) ∧
    (Fetches s (.ldFromDt x) → ∃ u, step s = .next u ∧ u.reg x = s.dt ∧
      u.dt.toNat = s.dt.toNat - 1 ∧ u.pc = s.pc + 2)

/-- `Fx15` and `Fx18` copy the register, and the timer counts down from it in the same cycle: writing 1 to
`ST` raises `tone_stop` at once, writing 0 never does (R215, R216, 70 R280 to R282). -/
def Obligations.SetTimerCopiesAndCountsAtOnce : Prop :=
  ∀ (s : State) (x : Reg),
    (∃ t, exec (.ldDt x) s = .next t ∧ t.dt = s.reg x ∧ t.pc = s.pc + 2 ∧
      ChangesOnly [.dt] (fun _ => False) s t) ∧
    (∃ t, exec (.ldSt x) s = .next t ∧ t.st = s.reg x ∧ t.pc = s.pc + 2 ∧
      ChangesOnly [.st] (fun _ => False) s t) ∧
    (Fetches s (.ldDt x) → ∃ u, step s = .next u ∧ u.dt.toNat = (s.reg x).toNat - 1 ∧
      u.pc = s.pc + 2) ∧
    (Fetches s (.ldSt x) → ∃ u, step s = .next u ∧ u.st.toNat = (s.reg x).toNat - 1 ∧
      (u.toneStop = true ↔ (s.reg x).toNat = 1) ∧ u.pc = s.pc + 2)

/-! ### Reset and load (70_reset_and_hazards) -/

/-- What reset leaves, right after power-on and from every state, the faulted one too. The zeros and the
entry point are the spec's decision D24, the font bytes its decision D15 (log entries 6 and 8); nothing is
said of the random source. -/
def Obligations.ResetPutsEveryPieceAtItsValue : Prop :=
  ∀ t : State, (t = State.reset ∨ ∃ s, t = hostReset s) →
    (∀ x, t.reg x = 0) ∧ t.index = 0 ∧ t.pc = 0x200 ∧ t.sp.val = 0 ∧
    (∀ k : Fin 16, t.stack[k.val] = 0) ∧ t.dt = 0 ∧ t.st = 0 ∧
    (∀ a < 80, t.mem.byteAt a = Config.fontBytes.getD a 0) ∧ (∀ a, 80 ≤ a → t.mem.byteAt a = 0) ∧
    (∀ c r, t.px c r = false) ∧ (∀ c r, t.dirty c r = true) ∧ t.fault = none ∧ t.toneStop = false

/-- The load before the first tick: an image that fits lands whole at 0x200 and nothing else changes; a
longer one is refused (R272, 60 R252; that a load later is refused is log entry 16). -/
def Obligations.LoadPlacesTheImageOrRefuses : Prop :=
  ∀ (s : State) (bytes : List Byte), s.ticks = 0 → s.fault = none →
    (bytes.length ≤ 3584 → ∃ t, loadRom s bytes = .next t ∧
      (∀ j < bytes.length, t.mem.byteAt (0x200 + j) = bytes.getD j 0) ∧
      MemoryElsewhere 0x200 bytes.length s t ∧ t.pc = s.pc ∧
      ChangesOnly [.memory] (fun _ => False) s t) ∧
    (3584 < bytes.length → loadRom s bytes = .refused .romTooLarge)

/-! ### The end of a run (00_scope section 6) -/

/-- A run always comes to the end of its ticks, and it counts exactly the cycles it completes: all of them
where it ends with no fault, those before the faulting tick where a tick of it faults, none where the core was
faulted, and then nothing changes (R18, 60 R244, R248). What a run is, is log entry 23; the count and the queue
of key samples are the model's own, log entries 2 and 14. -/
def Obligations.EveryRunEndsAfterItsTicks : Prop :=
  ∀ (ks : List KeySample) (s : State), ∃ t, runTicks ks s = .next t ∧
    t.keys = s.keys ∧ t.resets = s.resets ∧
    (t.fault = none → s.fault = none ∧ t.ticks = s.ticks + ks.length) ∧
    (s.fault = none → t.fault ≠ none → ∃ j < ks.length, t.ticks = s.ticks + j ∧
      (∃ m, runTicks (ks.take j) s = .next m ∧ m.fault = none) ∧
      runTicks (ks.take (j + 1)) s = .next t) ∧
    (s.fault ≠ none → t = s)

/-- The two ends of a run are ends: a tick of a faulted core changes nothing, and a tick of an idle one
changes nothing but that `tone_stop` is 0 and the tick is counted, whatever the key (R18; the definition of
the end is the model's choice among those decision D31 offers, log entry 23). -/
def Obligations.EndedRunStaysEnded : Prop :=
  ∀ (s : State) (k : KeySample),
    (s.runStatus = .faulted → tick s k = .next s) ∧
    (s.runStatus = .idle → ∃ t, tick s k = .next t ∧ t.runStatus = .idle ∧
      t = { s with toneStop := false, ticks := s.ticks + 1 })

/-- At a jump to its own address a run counts the timers down; beside them it changes nothing but the output
`tone_stop` and the count of cycles, which is the model's own (R18; log entries 2 and 13). When it has had as
many ticks as the larger timer its status is idle, which is the model's definition of the end (log entry
23). -/
def Obligations.SelfJumpRunsTheTimersDown : Prop :=
  ∀ (ks : List KeySample) (s : State) (nnn : Addr12),
    Fetches s (.jp nnn) → s.pc.toNat = nnn.toNat →
    ∃ t, runTicks ks s = .next t ∧ t.pc = s.pc ∧
      t.dt.toNat = s.dt.toNat - ks.length ∧ t.st.toNat = s.st.toNat - ks.length ∧
      ChangesOnly [.dt, .st] (fun _ => False) s { t with ticks := s.ticks, toneStop := s.toneStop } ∧
      (s.dt.toNat ≤ ks.length → s.st.toNat ≤ ks.length → t.runStatus = .idle)
end

