-- ==== Sys2Proof/Laws/Decode.lean ====
section
/-! SUPPORT. A word as a number, and its fields as quotients and remainders (spec 30_encoding R71): what the
proofs about encoding need. -/

namespace Sys2Proof

theorem or_of_lt (a b i : Nat) (h : b < 2 ^ i) : a <<< i ||| b = a * 2 ^ i + b := by
  rw [← Nat.shiftLeft_add_eq_or_of_lt h, Nat.shiftLeft_eq]

/-- A field known by its number is that literal: what a match on a field's number leaves. -/
theorem eq_ofNat_of_toNat_eq {w : Nat} {a : BitVec w} {n : Nat} (h : a.toNat = n) :
    a = BitVec.ofNat w n := by
  subst h
  simp

/-! ### Words as numbers -/

theorem wordNNN_toNat (c : Nibble) (nnn : Addr12) :
    (wordNNN c nnn).toNat = c.toNat * 4096 + nnn.toNat := by
  show BitVec.toNat (w := 4 + 12) (c ++ nnn) = _
  rw [BitVec.toNat_append, or_of_lt _ _ _ nnn.isLt]
  rfl

theorem wordXKK_toNat (c : Nibble) (x : Reg) (kk : Byte) :
    (wordXKK c x kk).toNat = c.toNat * 4096 + x.val * 256 + kk.toNat := by
  show BitVec.toNat (w := 4 + 4 + 8) (c ++ (BitVec.ofFin x : Nibble) ++ kk) = _
  rw [BitVec.toNat_append, or_of_lt _ _ _ kk.isLt, BitVec.toNat_append,
    or_of_lt _ _ _ (BitVec.isLt _)]
  simp only [BitVec.toNat_ofFin]
  omega

theorem wordXYN_toNat (c : Nibble) (x y : Reg) (n : Nibble) :
    (wordXYN c x y n).toNat = c.toNat * 4096 + x.val * 256 + y.val * 16 + n.toNat := by
  show BitVec.toNat (w := 4 + 4 + 4 + 4)
    (c ++ (BitVec.ofFin x : Nibble) ++ (BitVec.ofFin y : Nibble) ++ n) = _
  rw [BitVec.toNat_append, or_of_lt _ _ _ n.isLt, BitVec.toNat_append,
    or_of_lt _ _ _ (BitVec.isLt _), BitVec.toNat_append, or_of_lt _ _ _ (BitVec.isLt _)]
  simp only [BitVec.toNat_ofFin]
  omega

theorem wordOfBytes_toNat (a b : Byte) : (wordOfBytes a b).toNat = a.toNat * 256 + b.toNat := by
  show BitVec.toNat (w := 8 + 8) (a ++ b) = _
  rw [BitVec.toNat_append, or_of_lt _ _ _ b.isLt]
  rfl

/-! ### Fields as numbers -/

theorem fieldClass_toNat (op : Word) : (fieldClass op).toNat = op.toNat / 4096 := by
  have := op.isLt
  simp only [fieldClass, BitVec.extractLsb'_toNat, Nat.shiftRight_eq_div_pow]
  omega

theorem fieldX_val (op : Word) : (fieldX op).val = op.toNat / 256 % 16 := by
  show (op.extractLsb' 8 4).toNat = _
  simp only [BitVec.extractLsb'_toNat, Nat.shiftRight_eq_div_pow]

theorem fieldY_val (op : Word) : (fieldY op).val = op.toNat / 16 % 16 := by
  show (op.extractLsb' 4 4).toNat = _
  simp only [BitVec.extractLsb'_toNat, Nat.shiftRight_eq_div_pow]

theorem fieldN_toNat (op : Word) : (fieldN op).toNat = op.toNat % 16 := by
  simp only [fieldN, BitVec.extractLsb'_toNat, Nat.shiftRight_zero]

theorem fieldKK_toNat (op : Word) : (fieldKK op).toNat = op.toNat % 256 := by
  simp only [fieldKK, BitVec.extractLsb'_toNat, Nat.shiftRight_zero]

theorem fieldNNN_toNat (op : Word) : (fieldNNN op).toNat = op.toNat % 4096 := by
  simp only [fieldNNN, BitVec.extractLsb'_toNat, Nat.shiftRight_zero]

theorem highByte_toNat (op : Word) : (highByte op).toNat = op.toNat / 256 := by
  have := op.isLt
  simp only [highByte, BitVec.extractLsb'_toNat, Nat.shiftRight_eq_div_pow]
  omega

theorem lowByte_toNat (op : Word) : (lowByte op).toNat = op.toNat % 256 := by
  simp only [lowByte, BitVec.extractLsb'_toNat, Nat.shiftRight_zero]

/-! ### Fields of a word built from its parts -/

@[simp] theorem fieldClass_wordNNN (c : Nibble) (nnn : Addr12) :
    fieldClass (wordNNN c nnn) = c := by
  apply BitVec.eq_of_toNat_eq
  rw [fieldClass_toNat, wordNNN_toNat]
  omega

@[simp] theorem fieldNNN_wordNNN (c : Nibble) (nnn : Addr12) : fieldNNN (wordNNN c nnn) = nnn := by
  apply BitVec.eq_of_toNat_eq
  rw [fieldNNN_toNat, wordNNN_toNat]
  omega

@[simp] theorem fieldClass_wordXKK (c : Nibble) (x : Reg) (kk : Byte) :
    fieldClass (wordXKK c x kk) = c := by
  apply BitVec.eq_of_toNat_eq
  rw [fieldClass_toNat, wordXKK_toNat]
  omega

@[simp] theorem fieldX_wordXKK (c : Nibble) (x : Reg) (kk : Byte) : fieldX (wordXKK c x kk) = x := by
  apply Fin.ext
  rw [fieldX_val, wordXKK_toNat]
  omega

@[simp] theorem fieldKK_wordXKK (c : Nibble) (x : Reg) (kk : Byte) :
    fieldKK (wordXKK c x kk) = kk := by
  apply BitVec.eq_of_toNat_eq
  rw [fieldKK_toNat, wordXKK_toNat]
  omega

@[simp] theorem fieldClass_wordXYN (c : Nibble) (x y : Reg) (n : Nibble) :
    fieldClass (wordXYN c x y n) = c := by
  apply BitVec.eq_of_toNat_eq
  rw [fieldClass_toNat, wordXYN_toNat]
  omega

@[simp] theorem fieldX_wordXYN (c : Nibble) (x y : Reg) (n : Nibble) :
    fieldX (wordXYN c x y n) = x := by
  apply Fin.ext
  rw [fieldX_val, wordXYN_toNat]
  omega

@[simp] theorem fieldY_wordXYN (c : Nibble) (x y : Reg) (n : Nibble) :
    fieldY (wordXYN c x y n) = y := by
  apply Fin.ext
  rw [fieldY_val, wordXYN_toNat]
  omega

@[simp] theorem fieldN_wordXYN (c : Nibble) (x y : Reg) (n : Nibble) :
    fieldN (wordXYN c x y n) = n := by
  apply BitVec.eq_of_toNat_eq
  rw [fieldN_toNat, wordXYN_toNat]
  omega

/-! ### A word built from its own fields -/

theorem wordNNN_fields (op : Word) : wordNNN (fieldClass op) (fieldNNN op) = op := by
  apply BitVec.eq_of_toNat_eq
  rw [wordNNN_toNat, fieldClass_toNat, fieldNNN_toNat]
  omega

theorem wordXKK_fields (op : Word) : wordXKK (fieldClass op) (fieldX op) (fieldKK op) = op := by
  apply BitVec.eq_of_toNat_eq
  rw [wordXKK_toNat, fieldClass_toNat, fieldX_val, fieldKK_toNat]
  omega

theorem wordXYN_fields (op : Word) :
    wordXYN (fieldClass op) (fieldX op) (fieldY op) (fieldN op) = op := by
  apply BitVec.eq_of_toNat_eq
  rw [wordXYN_toNat, fieldClass_toNat, fieldX_val, fieldY_val, fieldN_toNat]
  omega

/-- The two bytes of a word, put together again (20_memory R54). -/
@[simp] theorem wordOfBytes_bytes (op : Word) : wordOfBytes (highByte op) (lowByte op) = op := by
  apply BitVec.eq_of_toNat_eq
  rw [wordOfBytes_toNat, highByte_toNat, lowByte_toNat]
  omega

end Sys2Proof
end

