-- ==== Sys2Proof/Laws/State.lean ====
section
/-! SUPPORT. The fields of a state after each update: one lemma for each field and update, true by
definition, so that no proof unfolds a record update. -/

namespace Sys2Proof.Machine

variable (s : State)

/-! ### `State.setReg` -/

@[simp] theorem State.setReg_v (x : Reg) (b : Byte) : (s.setReg x b).v = s.v.set x.val b := rfl
@[simp] theorem State.setReg_index (x : Reg) (b : Byte) : (s.setReg x b).index = s.index := rfl
@[simp] theorem State.setReg_pc (x : Reg) (b : Byte) : (s.setReg x b).pc = s.pc := rfl
@[simp] theorem State.setReg_sp (x : Reg) (b : Byte) : (s.setReg x b).sp = s.sp := rfl
@[simp] theorem State.setReg_stack (x : Reg) (b : Byte) : (s.setReg x b).stack = s.stack := rfl
@[simp] theorem State.setReg_dt (x : Reg) (b : Byte) : (s.setReg x b).dt = s.dt := rfl
@[simp] theorem State.setReg_st (x : Reg) (b : Byte) : (s.setReg x b).st = s.st := rfl
@[simp] theorem State.setReg_mem (x : Reg) (b : Byte) : (s.setReg x b).mem = s.mem := rfl
@[simp] theorem State.setReg_display (x : Reg) (b : Byte) : (s.setReg x b).display = s.display := rfl
@[simp] theorem State.setReg_rng (x : Reg) (b : Byte) : (s.setReg x b).rng = s.rng := rfl
@[simp] theorem State.setReg_fault (x : Reg) (b : Byte) : (s.setReg x b).fault = s.fault := rfl
@[simp] theorem State.setReg_toneStop (x : Reg) (b : Byte) : (s.setReg x b).toneStop = s.toneStop := rfl
@[simp] theorem State.setReg_keys (x : Reg) (b : Byte) : (s.setReg x b).keys = s.keys := rfl
@[simp] theorem State.setReg_ticks (x : Reg) (b : Byte) : (s.setReg x b).ticks = s.ticks := rfl
@[simp] theorem State.setReg_resets (x : Reg) (b : Byte) : (s.setReg x b).resets = s.resets := rfl

/-! ### `State.setRegs` -/

@[simp] theorem State.setRegs_v (w : Vector Byte 16) : (s.setRegs w).v = w := rfl
@[simp] theorem State.setRegs_index (w : Vector Byte 16) : (s.setRegs w).index = s.index := rfl
@[simp] theorem State.setRegs_pc (w : Vector Byte 16) : (s.setRegs w).pc = s.pc := rfl
@[simp] theorem State.setRegs_sp (w : Vector Byte 16) : (s.setRegs w).sp = s.sp := rfl
@[simp] theorem State.setRegs_stack (w : Vector Byte 16) : (s.setRegs w).stack = s.stack := rfl
@[simp] theorem State.setRegs_dt (w : Vector Byte 16) : (s.setRegs w).dt = s.dt := rfl
@[simp] theorem State.setRegs_st (w : Vector Byte 16) : (s.setRegs w).st = s.st := rfl
@[simp] theorem State.setRegs_mem (w : Vector Byte 16) : (s.setRegs w).mem = s.mem := rfl
@[simp] theorem State.setRegs_display (w : Vector Byte 16) : (s.setRegs w).display = s.display := rfl
@[simp] theorem State.setRegs_rng (w : Vector Byte 16) : (s.setRegs w).rng = s.rng := rfl
@[simp] theorem State.setRegs_fault (w : Vector Byte 16) : (s.setRegs w).fault = s.fault := rfl
@[simp] theorem State.setRegs_toneStop (w : Vector Byte 16) : (s.setRegs w).toneStop = s.toneStop := rfl
@[simp] theorem State.setRegs_keys (w : Vector Byte 16) : (s.setRegs w).keys = s.keys := rfl
@[simp] theorem State.setRegs_ticks (w : Vector Byte 16) : (s.setRegs w).ticks = s.ticks := rfl
@[simp] theorem State.setRegs_resets (w : Vector Byte 16) : (s.setRegs w).resets = s.resets := rfl

/-! ### `State.goTo` -/

@[simp] theorem State.goTo_v (w : Word) : (s.goTo w).v = s.v := rfl
@[simp] theorem State.goTo_index (w : Word) : (s.goTo w).index = s.index := rfl
@[simp] theorem State.goTo_pc (w : Word) : (s.goTo w).pc = w := rfl
@[simp] theorem State.goTo_sp (w : Word) : (s.goTo w).sp = s.sp := rfl
@[simp] theorem State.goTo_stack (w : Word) : (s.goTo w).stack = s.stack := rfl
@[simp] theorem State.goTo_dt (w : Word) : (s.goTo w).dt = s.dt := rfl
@[simp] theorem State.goTo_st (w : Word) : (s.goTo w).st = s.st := rfl
@[simp] theorem State.goTo_mem (w : Word) : (s.goTo w).mem = s.mem := rfl
@[simp] theorem State.goTo_display (w : Word) : (s.goTo w).display = s.display := rfl
@[simp] theorem State.goTo_rng (w : Word) : (s.goTo w).rng = s.rng := rfl
@[simp] theorem State.goTo_fault (w : Word) : (s.goTo w).fault = s.fault := rfl
@[simp] theorem State.goTo_toneStop (w : Word) : (s.goTo w).toneStop = s.toneStop := rfl
@[simp] theorem State.goTo_keys (w : Word) : (s.goTo w).keys = s.keys := rfl
@[simp] theorem State.goTo_ticks (w : Word) : (s.goTo w).ticks = s.ticks := rfl
@[simp] theorem State.goTo_resets (w : Word) : (s.goTo w).resets = s.resets := rfl

/-! ### `State.advance` -/

@[simp] theorem State.advance_v : s.advance.v = s.v := rfl
@[simp] theorem State.advance_index : s.advance.index = s.index := rfl
@[simp] theorem State.advance_pc : s.advance.pc = s.pc + 2 := rfl
@[simp] theorem State.advance_sp : s.advance.sp = s.sp := rfl
@[simp] theorem State.advance_stack : s.advance.stack = s.stack := rfl
@[simp] theorem State.advance_dt : s.advance.dt = s.dt := rfl
@[simp] theorem State.advance_st : s.advance.st = s.st := rfl
@[simp] theorem State.advance_mem : s.advance.mem = s.mem := rfl
@[simp] theorem State.advance_display : s.advance.display = s.display := rfl
@[simp] theorem State.advance_rng : s.advance.rng = s.rng := rfl
@[simp] theorem State.advance_fault : s.advance.fault = s.fault := rfl
@[simp] theorem State.advance_toneStop : s.advance.toneStop = s.toneStop := rfl
@[simp] theorem State.advance_keys : s.advance.keys = s.keys := rfl
@[simp] theorem State.advance_ticks : s.advance.ticks = s.ticks := rfl
@[simp] theorem State.advance_resets : s.advance.resets = s.resets := rfl

/-! ### `State.skipIf` -/

@[simp] theorem State.skipIf_v (c : Bool) : (s.skipIf c).v = s.v := rfl
@[simp] theorem State.skipIf_index (c : Bool) : (s.skipIf c).index = s.index := rfl
@[simp] theorem State.skipIf_pc (c : Bool) : (s.skipIf c).pc = if c then s.pc + 4 else s.pc + 2 := rfl
@[simp] theorem State.skipIf_sp (c : Bool) : (s.skipIf c).sp = s.sp := rfl
@[simp] theorem State.skipIf_stack (c : Bool) : (s.skipIf c).stack = s.stack := rfl
@[simp] theorem State.skipIf_dt (c : Bool) : (s.skipIf c).dt = s.dt := rfl
@[simp] theorem State.skipIf_st (c : Bool) : (s.skipIf c).st = s.st := rfl
@[simp] theorem State.skipIf_mem (c : Bool) : (s.skipIf c).mem = s.mem := rfl
@[simp] theorem State.skipIf_display (c : Bool) : (s.skipIf c).display = s.display := rfl
@[simp] theorem State.skipIf_rng (c : Bool) : (s.skipIf c).rng = s.rng := rfl
@[simp] theorem State.skipIf_fault (c : Bool) : (s.skipIf c).fault = s.fault := rfl
@[simp] theorem State.skipIf_toneStop (c : Bool) : (s.skipIf c).toneStop = s.toneStop := rfl
@[simp] theorem State.skipIf_keys (c : Bool) : (s.skipIf c).keys = s.keys := rfl
@[simp] theorem State.skipIf_ticks (c : Bool) : (s.skipIf c).ticks = s.ticks := rfl
@[simp] theorem State.skipIf_resets (c : Bool) : (s.skipIf c).resets = s.resets := rfl

/-! ### `State.setIndex` -/

@[simp] theorem State.setIndex_v (w : Word) : (s.setIndex w).v = s.v := rfl
@[simp] theorem State.setIndex_index (w : Word) : (s.setIndex w).index = w := rfl
@[simp] theorem State.setIndex_pc (w : Word) : (s.setIndex w).pc = s.pc := rfl
@[simp] theorem State.setIndex_sp (w : Word) : (s.setIndex w).sp = s.sp := rfl
@[simp] theorem State.setIndex_stack (w : Word) : (s.setIndex w).stack = s.stack := rfl
@[simp] theorem State.setIndex_dt (w : Word) : (s.setIndex w).dt = s.dt := rfl
@[simp] theorem State.setIndex_st (w : Word) : (s.setIndex w).st = s.st := rfl
@[simp] theorem State.setIndex_mem (w : Word) : (s.setIndex w).mem = s.mem := rfl
@[simp] theorem State.setIndex_display (w : Word) : (s.setIndex w).display = s.display := rfl
@[simp] theorem State.setIndex_rng (w : Word) : (s.setIndex w).rng = s.rng := rfl
@[simp] theorem State.setIndex_fault (w : Word) : (s.setIndex w).fault = s.fault := rfl
@[simp] theorem State.setIndex_toneStop (w : Word) : (s.setIndex w).toneStop = s.toneStop := rfl
@[simp] theorem State.setIndex_keys (w : Word) : (s.setIndex w).keys = s.keys := rfl
@[simp] theorem State.setIndex_ticks (w : Word) : (s.setIndex w).ticks = s.ticks := rfl
@[simp] theorem State.setIndex_resets (w : Word) : (s.setIndex w).resets = s.resets := rfl

/-! ### `State.setDt` -/

@[simp] theorem State.setDt_v (b : Byte) : (s.setDt b).v = s.v := rfl
@[simp] theorem State.setDt_index (b : Byte) : (s.setDt b).index = s.index := rfl
@[simp] theorem State.setDt_pc (b : Byte) : (s.setDt b).pc = s.pc := rfl
@[simp] theorem State.setDt_sp (b : Byte) : (s.setDt b).sp = s.sp := rfl
@[simp] theorem State.setDt_stack (b : Byte) : (s.setDt b).stack = s.stack := rfl
@[simp] theorem State.setDt_dt (b : Byte) : (s.setDt b).dt = b := rfl
@[simp] theorem State.setDt_st (b : Byte) : (s.setDt b).st = s.st := rfl
@[simp] theorem State.setDt_mem (b : Byte) : (s.setDt b).mem = s.mem := rfl
@[simp] theorem State.setDt_display (b : Byte) : (s.setDt b).display = s.display := rfl
@[simp] theorem State.setDt_rng (b : Byte) : (s.setDt b).rng = s.rng := rfl
@[simp] theorem State.setDt_fault (b : Byte) : (s.setDt b).fault = s.fault := rfl
@[simp] theorem State.setDt_toneStop (b : Byte) : (s.setDt b).toneStop = s.toneStop := rfl
@[simp] theorem State.setDt_keys (b : Byte) : (s.setDt b).keys = s.keys := rfl
@[simp] theorem State.setDt_ticks (b : Byte) : (s.setDt b).ticks = s.ticks := rfl
@[simp] theorem State.setDt_resets (b : Byte) : (s.setDt b).resets = s.resets := rfl

/-! ### `State.setSt` -/

@[simp] theorem State.setSt_v (b : Byte) : (s.setSt b).v = s.v := rfl
@[simp] theorem State.setSt_index (b : Byte) : (s.setSt b).index = s.index := rfl
@[simp] theorem State.setSt_pc (b : Byte) : (s.setSt b).pc = s.pc := rfl
@[simp] theorem State.setSt_sp (b : Byte) : (s.setSt b).sp = s.sp := rfl
@[simp] theorem State.setSt_stack (b : Byte) : (s.setSt b).stack = s.stack := rfl
@[simp] theorem State.setSt_dt (b : Byte) : (s.setSt b).dt = s.dt := rfl
@[simp] theorem State.setSt_st (b : Byte) : (s.setSt b).st = b := rfl
@[simp] theorem State.setSt_mem (b : Byte) : (s.setSt b).mem = s.mem := rfl
@[simp] theorem State.setSt_display (b : Byte) : (s.setSt b).display = s.display := rfl
@[simp] theorem State.setSt_rng (b : Byte) : (s.setSt b).rng = s.rng := rfl
@[simp] theorem State.setSt_fault (b : Byte) : (s.setSt b).fault = s.fault := rfl
@[simp] theorem State.setSt_toneStop (b : Byte) : (s.setSt b).toneStop = s.toneStop := rfl
@[simp] theorem State.setSt_keys (b : Byte) : (s.setSt b).keys = s.keys := rfl
@[simp] theorem State.setSt_ticks (b : Byte) : (s.setSt b).ticks = s.ticks := rfl
@[simp] theorem State.setSt_resets (b : Byte) : (s.setSt b).resets = s.resets := rfl

/-! ### `State.setMem` -/

@[simp] theorem State.setMem_v (m : Memory) : (s.setMem m).v = s.v := rfl
@[simp] theorem State.setMem_index (m : Memory) : (s.setMem m).index = s.index := rfl
@[simp] theorem State.setMem_pc (m : Memory) : (s.setMem m).pc = s.pc := rfl
@[simp] theorem State.setMem_sp (m : Memory) : (s.setMem m).sp = s.sp := rfl
@[simp] theorem State.setMem_stack (m : Memory) : (s.setMem m).stack = s.stack := rfl
@[simp] theorem State.setMem_dt (m : Memory) : (s.setMem m).dt = s.dt := rfl
@[simp] theorem State.setMem_st (m : Memory) : (s.setMem m).st = s.st := rfl
@[simp] theorem State.setMem_mem (m : Memory) : (s.setMem m).mem = m := rfl
@[simp] theorem State.setMem_display (m : Memory) : (s.setMem m).display = s.display := rfl
@[simp] theorem State.setMem_rng (m : Memory) : (s.setMem m).rng = s.rng := rfl
@[simp] theorem State.setMem_fault (m : Memory) : (s.setMem m).fault = s.fault := rfl
@[simp] theorem State.setMem_toneStop (m : Memory) : (s.setMem m).toneStop = s.toneStop := rfl
@[simp] theorem State.setMem_keys (m : Memory) : (s.setMem m).keys = s.keys := rfl
@[simp] theorem State.setMem_ticks (m : Memory) : (s.setMem m).ticks = s.ticks := rfl
@[simp] theorem State.setMem_resets (m : Memory) : (s.setMem m).resets = s.resets := rfl

/-! ### `State.setDisplay` -/

@[simp] theorem State.setDisplay_v (d : Surface) : (s.setDisplay d).v = s.v := rfl
@[simp] theorem State.setDisplay_index (d : Surface) : (s.setDisplay d).index = s.index := rfl
@[simp] theorem State.setDisplay_pc (d : Surface) : (s.setDisplay d).pc = s.pc := rfl
@[simp] theorem State.setDisplay_sp (d : Surface) : (s.setDisplay d).sp = s.sp := rfl
@[simp] theorem State.setDisplay_stack (d : Surface) : (s.setDisplay d).stack = s.stack := rfl
@[simp] theorem State.setDisplay_dt (d : Surface) : (s.setDisplay d).dt = s.dt := rfl
@[simp] theorem State.setDisplay_st (d : Surface) : (s.setDisplay d).st = s.st := rfl
@[simp] theorem State.setDisplay_mem (d : Surface) : (s.setDisplay d).mem = s.mem := rfl
@[simp] theorem State.setDisplay_display (d : Surface) : (s.setDisplay d).display = d := rfl
@[simp] theorem State.setDisplay_rng (d : Surface) : (s.setDisplay d).rng = s.rng := rfl
@[simp] theorem State.setDisplay_fault (d : Surface) : (s.setDisplay d).fault = s.fault := rfl
@[simp] theorem State.setDisplay_toneStop (d : Surface) : (s.setDisplay d).toneStop = s.toneStop := rfl
@[simp] theorem State.setDisplay_keys (d : Surface) : (s.setDisplay d).keys = s.keys := rfl
@[simp] theorem State.setDisplay_ticks (d : Surface) : (s.setDisplay d).ticks = s.ticks := rfl
@[simp] theorem State.setDisplay_resets (d : Surface) : (s.setDisplay d).resets = s.resets := rfl

/-! ### `State.setKeys` -/

@[simp] theorem State.setKeys_v (ks : List KeySample) : (s.setKeys ks).v = s.v := rfl
@[simp] theorem State.setKeys_index (ks : List KeySample) : (s.setKeys ks).index = s.index := rfl
@[simp] theorem State.setKeys_pc (ks : List KeySample) : (s.setKeys ks).pc = s.pc := rfl
@[simp] theorem State.setKeys_sp (ks : List KeySample) : (s.setKeys ks).sp = s.sp := rfl
@[simp] theorem State.setKeys_stack (ks : List KeySample) : (s.setKeys ks).stack = s.stack := rfl
@[simp] theorem State.setKeys_dt (ks : List KeySample) : (s.setKeys ks).dt = s.dt := rfl
@[simp] theorem State.setKeys_st (ks : List KeySample) : (s.setKeys ks).st = s.st := rfl
@[simp] theorem State.setKeys_mem (ks : List KeySample) : (s.setKeys ks).mem = s.mem := rfl
@[simp] theorem State.setKeys_display (ks : List KeySample) : (s.setKeys ks).display = s.display := rfl
@[simp] theorem State.setKeys_rng (ks : List KeySample) : (s.setKeys ks).rng = s.rng := rfl
@[simp] theorem State.setKeys_fault (ks : List KeySample) : (s.setKeys ks).fault = s.fault := rfl
@[simp] theorem State.setKeys_toneStop (ks : List KeySample) : (s.setKeys ks).toneStop = s.toneStop := rfl
@[simp] theorem State.setKeys_keys (ks : List KeySample) : (s.setKeys ks).keys = ks := rfl
@[simp] theorem State.setKeys_ticks (ks : List KeySample) : (s.setKeys ks).ticks = s.ticks := rfl
@[simp] theorem State.setKeys_resets (ks : List KeySample) : (s.setKeys ks).resets = s.resets := rfl

/-! ### `State.drawn` -/

@[simp] theorem State.drawn_v : s.drawn.v = s.v := rfl
@[simp] theorem State.drawn_index : s.drawn.index = s.index := rfl
@[simp] theorem State.drawn_pc : s.drawn.pc = s.pc := rfl
@[simp] theorem State.drawn_sp : s.drawn.sp = s.sp := rfl
@[simp] theorem State.drawn_stack : s.drawn.stack = s.stack := rfl
@[simp] theorem State.drawn_dt : s.drawn.dt = s.dt := rfl
@[simp] theorem State.drawn_st : s.drawn.st = s.st := rfl
@[simp] theorem State.drawn_mem : s.drawn.mem = s.mem := rfl
@[simp] theorem State.drawn_display : s.drawn.display = s.display := rfl
@[simp] theorem State.drawn_rng : s.drawn.rng = ⟨s.rng.seed, s.rng.draws + 1⟩ := rfl
@[simp] theorem State.drawn_fault : s.drawn.fault = s.fault := rfl
@[simp] theorem State.drawn_toneStop : s.drawn.toneStop = s.toneStop := rfl
@[simp] theorem State.drawn_keys : s.drawn.keys = s.keys := rfl
@[simp] theorem State.drawn_ticks : s.drawn.ticks = s.ticks := rfl
@[simp] theorem State.drawn_resets : s.drawn.resets = s.resets := rfl

/-! ### `State.raise` -/

@[simp] theorem State.raise_v (c : FaultCause) (o : Option Word) (a : Option Nat) : (s.raise c o a).v = s.v := rfl
@[simp] theorem State.raise_index (c : FaultCause) (o : Option Word) (a : Option Nat) : (s.raise c o a).index = s.index := rfl
@[simp] theorem State.raise_pc (c : FaultCause) (o : Option Word) (a : Option Nat) : (s.raise c o a).pc = s.pc := rfl
@[simp] theorem State.raise_sp (c : FaultCause) (o : Option Word) (a : Option Nat) : (s.raise c o a).sp = s.sp := rfl
@[simp] theorem State.raise_stack (c : FaultCause) (o : Option Word) (a : Option Nat) : (s.raise c o a).stack = s.stack := rfl
@[simp] theorem State.raise_dt (c : FaultCause) (o : Option Word) (a : Option Nat) : (s.raise c o a).dt = s.dt := rfl
@[simp] theorem State.raise_st (c : FaultCause) (o : Option Word) (a : Option Nat) : (s.raise c o a).st = s.st := rfl
@[simp] theorem State.raise_mem (c : FaultCause) (o : Option Word) (a : Option Nat) : (s.raise c o a).mem = s.mem := rfl
@[simp] theorem State.raise_display (c : FaultCause) (o : Option Word) (a : Option Nat) : (s.raise c o a).display = s.display := rfl
@[simp] theorem State.raise_rng (c : FaultCause) (o : Option Word) (a : Option Nat) : (s.raise c o a).rng = s.rng := rfl
@[simp] theorem State.raise_fault (c : FaultCause) (o : Option Word) (a : Option Nat) : (s.raise c o a).fault = some ⟨c, o, s.pc, a⟩ := rfl
@[simp] theorem State.raise_toneStop (c : FaultCause) (o : Option Word) (a : Option Nat) : (s.raise c o a).toneStop = false := rfl
@[simp] theorem State.raise_keys (c : FaultCause) (o : Option Word) (a : Option Nat) : (s.raise c o a).keys = s.keys := rfl
@[simp] theorem State.raise_ticks (c : FaultCause) (o : Option Word) (a : Option Nat) : (s.raise c o a).ticks = s.ticks := rfl
@[simp] theorem State.raise_resets (c : FaultCause) (o : Option Word) (a : Option Nat) : (s.raise c o a).resets = s.resets := rfl

/-! ### `State.endCycle` -/

@[simp] theorem State.endCycle_v : s.endCycle.v = s.v := rfl
@[simp] theorem State.endCycle_index : s.endCycle.index = s.index := rfl
@[simp] theorem State.endCycle_pc : s.endCycle.pc = s.pc := rfl
@[simp] theorem State.endCycle_sp : s.endCycle.sp = s.sp := rfl
@[simp] theorem State.endCycle_stack : s.endCycle.stack = s.stack := rfl
@[simp] theorem State.endCycle_dt : s.endCycle.dt = decremented s.dt := rfl
@[simp] theorem State.endCycle_st : s.endCycle.st = decremented s.st := rfl
@[simp] theorem State.endCycle_mem : s.endCycle.mem = s.mem := rfl
@[simp] theorem State.endCycle_display : s.endCycle.display = s.display := rfl
@[simp] theorem State.endCycle_rng : s.endCycle.rng = s.rng := rfl
@[simp] theorem State.endCycle_fault : s.endCycle.fault = s.fault := rfl
@[simp] theorem State.endCycle_toneStop : s.endCycle.toneStop = decide (s.st = 1) := rfl
@[simp] theorem State.endCycle_keys : s.endCycle.keys = s.keys.tail := rfl
@[simp] theorem State.endCycle_ticks : s.endCycle.ticks = s.ticks + 1 := rfl
@[simp] theorem State.endCycle_resets : s.endCycle.resets = s.resets := rfl

/-! ### Reading a register after an update -/

/-- A written register reads back what was written; the others read as before (10_state R21). -/
theorem State.reg_setReg (x y : Reg) (b : Byte) :
    (s.setReg x b).reg y = if y = x then b else s.reg y := by
  simp only [State.reg, State.setReg, Vector.getElem_set]
  by_cases h : y = x
  · simp [h]
  · rw [if_neg (fun e => h (Fin.ext e.symm)), if_neg h]

@[simp] theorem State.reg_setReg_self (x : Reg) (b : Byte) : (s.setReg x b).reg x = b := by
  simp [State.reg_setReg]

@[simp] theorem State.goTo_reg (w : Word) (y : Reg) : (s.goTo w).reg y = s.reg y := rfl
@[simp] theorem State.advance_reg (y : Reg) : s.advance.reg y = s.reg y := rfl
@[simp] theorem State.skipIf_reg (c : Bool) (y : Reg) : (s.skipIf c).reg y = s.reg y := rfl
@[simp] theorem State.setIndex_reg (w : Word) (y : Reg) : (s.setIndex w).reg y = s.reg y := rfl
@[simp] theorem State.setDt_reg (b : Byte) (y : Reg) : (s.setDt b).reg y = s.reg y := rfl
@[simp] theorem State.setSt_reg (b : Byte) (y : Reg) : (s.setSt b).reg y = s.reg y := rfl
@[simp] theorem State.setMem_reg (m : Memory) (y : Reg) : (s.setMem m).reg y = s.reg y := rfl
@[simp] theorem State.setDisplay_reg (d : Surface) (y : Reg) : (s.setDisplay d).reg y = s.reg y := rfl
@[simp] theorem State.setKeys_reg (ks : List KeySample) (y : Reg) : (s.setKeys ks).reg y = s.reg y := rfl
@[simp] theorem State.drawn_reg (y : Reg) : s.drawn.reg y = s.reg y := rfl
@[simp] theorem State.raise_reg (c : FaultCause) (o : Option Word) (a : Option Nat) (y : Reg) : (s.raise c o a).reg y = s.reg y := rfl
@[simp] theorem State.endCycle_reg (y : Reg) : s.endCycle.reg y = s.reg y := rfl
@[simp] theorem State.setRegs_reg (w : Vector Byte 16) (y : Reg) :
    (s.setRegs w).reg y = w[y.val] := rfl

end Sys2Proof.Machine
end

