-- ==== Sys2Proof/Laws/Ops.lean ====
section
/-! SUPPORT. What each shared operation can do, once each: memory, sequences of byte accesses, the fetch,
the stack, the end of the cycle. -/

namespace Sys2Proof.Machine

/-! ### One byte of memory -/

theorem lookupCell_insertCell (a b : Nat) (w : Byte) (l : List Host.Cell)
    (h : ∀ c ∈ l, c.1 ≠ a) :
    lookupCell (insertCell a w l) b = if b = a then w else lookupCell l b := by
  induction l with
  | nil => simp [insertCell, lookupCell]
  | cons c rest ih =>
    obtain ⟨k, u⟩ := c
    have hk : k ≠ a := h (k, u) (by simp)
    have ih := ih fun c hc => h c (by simp [hc])
    simp only [insertCell]
    split
    · simp [lookupCell]
    · simp only [lookupCell, ih]
      by_cases hb : b = k <;> by_cases ha : b = a <;> simp_all

theorem lookupCell_filter_ne (a b : Nat) (l : List Host.Cell) :
    lookupCell (l.filter (fun c => c.1 != a)) b = if b = a then unlisted a else lookupCell l b := by
  induction l with
  | nil => by_cases h : b = a <;> simp [lookupCell, h]
  | cons c rest ih =>
    obtain ⟨k, u⟩ := c
    by_cases hk : k = a
    · subst hk
      have hf : ((k, u) :: rest).filter (fun c => c.1 != k) = rest.filter (fun c => c.1 != k) := by
        simp
      rw [hf, ih]
      by_cases hb : b = k <;> simp [lookupCell, hb]
    · have hf : ((k, u) :: rest).filter (fun c => c.1 != a) =
          (k, u) :: rest.filter (fun c => c.1 != a) := by simp [hk]
      rw [hf]
      simp only [lookupCell, ih]
      by_cases hb : b = k
      · simp [hb, hk]
      · simp [hb]

/-- A read after a write: the byte written at its own address, the old byte at every other one
(20_memory R57, R60). -/
theorem Memory.byteAt_setByte (m : Memory) (a b : Nat) (w : Byte) :
    (m.setByte a w).byteAt b = if b = a then w else m.byteAt b := by
  unfold Memory.setByte Memory.byteAt
  by_cases hw : w = unlisted a
  · rw [if_pos hw, lookupCell_filter_ne, hw]
  · rw [if_neg hw, lookupCell_insertCell _ _ _ _ (by simp), lookupCell_filter_ne]
    by_cases hb : b = a <;> simp [hb]

theorem mem_insertCell (a : Nat) (w : Byte) (l : List Host.Cell) (c : Host.Cell) :
    c ∈ insertCell a w l ↔ c = (a, w) ∨ c ∈ l := by
  induction l with
  | nil => simp [insertCell]
  | cons d rest ih =>
    obtain ⟨k, u⟩ := d
    simp only [insertCell]
    split
    · simp
    · simp only [List.mem_cons, ih]; tauto

theorem insertCell_rising (a : Nat) (w : Byte) (l : List Host.Cell)
    (hne : ∀ c ∈ l, c.1 ≠ a) (h : l.Pairwise (fun c d => c.1 < d.1)) :
    (insertCell a w l).Pairwise (fun c d => c.1 < d.1) := by
  induction l with
  | nil => simp [insertCell]
  | cons d rest ih =>
    obtain ⟨k, u⟩ := d
    rw [List.pairwise_cons] at h
    have hk : k ≠ a := hne (k, u) (by simp)
    simp only [insertCell]
    split
    · next hlt =>
      refine List.pairwise_cons.2 ⟨?_, List.pairwise_cons.2 h⟩
      intro c hc
      rcases List.mem_cons.1 hc with rfl | hc
      · exact hlt
      · exact hlt.trans (h.1 c hc)
    · next hlt =>
      refine List.pairwise_cons.2 ⟨?_, ih (fun c hc => hne c (by simp [hc])) h.2⟩
      intro c hc
      rcases (mem_insertCell _ _ _ _).1 hc with rfl | hc
      · show k < a
        omega
      · exact h.1 c hc

/-- A write to an address that exists keeps the canonical form. -/
theorem Memory.setByte_wf (m : Memory) (a : Nat) (w : Byte) (ha : a < Config.memSize) (h : m.wf) :
    (m.setByte a w).wf := by
  have hf : (m.cells.filter (fun c => c.1 != a)).Pairwise (fun c d => c.1 < d.1) := h.1.filter _
  unfold Memory.setByte
  by_cases hw : w = unlisted a
  · simp only [if_pos hw]
    exact ⟨hf, fun c hc => h.2 c (List.mem_filter.1 hc).1⟩
  · simp only [if_neg hw]
    refine ⟨insertCell_rising a w _ (by simp) hf, fun c hc => ?_⟩
    rcases (mem_insertCell _ _ _ _).1 hc with rfl | hc
    · exact ⟨ha, hw⟩
    · exact h.2 c (List.mem_filter.1 hc).1

theorem State.reset_mem_wf : State.reset.mem.wf := by decide

/-! ### Sequences of byte accesses -/

/-- What a sequence of reads answers: the bytes, or the lowest offending address (42 R167, R168). -/
theorem readBytes_eq (m : Memory) (a n : Nat) :
    readBytes m a n =
      if n = 0 ∨ a + n ≤ Config.memSize then .ok ((List.range n).map fun k => m.byteAt (a + k))
      else .error (max a Config.memSize) := by
  induction n generalizing a with
  | zero => simp [readBytes]
  | succ n ih =>
    simp only [readBytes, memRead, ih (a + 1), Config.memSize]
    by_cases ha : a < 4096
    · by_cases hn : n = 0 ∨ a + 1 + n ≤ 4096
      · have : a + (n + 1) ≤ 4096 := by omega
        simp only [ha, hn, this, if_true, or_true, List.range_succ_eq_map, List.map_cons, List.map_map]
        congr 2
        exact List.map_congr_left fun k _ => by simp only [Function.comp_apply]; congr 1; omega
      · have : ¬ a + (n + 1) ≤ 4096 := by omega
        simp only [ha, hn, this, if_true, if_false, Nat.succ_ne_zero, or_self]
        congr 1
        omega
    · have : ¬ a + (n + 1) ≤ 4096 := by omega
      simp only [ha, this, if_false, Nat.succ_ne_zero, or_self]
      congr 1
      omega

/-- A sequence of writes that fits answers a memory with exactly those bytes changed, in canonical form
when it was (42 R167). -/
theorem writeBytes_ok (m : Memory) (a : Nat) (bs : List Byte)
    (h : bs = [] ∨ a + bs.length ≤ Config.memSize) :
    ∃ m', writeBytes m a bs = .ok m' ∧ (m.wf → m'.wf) ∧
      ∀ b, m'.byteAt b =
        if a ≤ b ∧ b < a + bs.length then bs.getD (b - a) 0 else m.byteAt b := by
  induction bs generalizing m a with
  | nil => exact ⟨m, rfl, id, fun b => by rw [if_neg]; simp⟩
  | cons w rest ih =>
    simp only [List.length_cons, Config.memSize, reduceCtorEq, false_or] at h
    have ha : a < Config.memSize := by simp only [Config.memSize]; omega
    obtain ⟨m', hm', hwf, hb⟩ := ih (m.setByte a w) (a + 1)
      (by right; simp only [Config.memSize]; omega)
    refine ⟨m', ?_, fun hm => hwf (m.setByte_wf a w ha hm), fun b => ?_⟩
    · simp only [writeBytes, memWrite, ha, if_true, hm']
    · rw [hb b, Memory.byteAt_setByte, List.length_cons]
      rcases Nat.lt_trichotomy b a with hlt | rfl | hgt
      · rw [if_neg (by omega), if_neg (by omega), if_neg (by omega)]
      · rw [if_neg (by omega), if_pos rfl, if_pos (by omega), Nat.sub_self]; rfl
      · obtain ⟨d, rfl⟩ : ∃ d, b = a + 1 + d := ⟨b - (a + 1), by omega⟩
        have e : a + 1 + d - a = d + 1 := by omega
        by_cases hd : d < rest.length
        · rw [if_pos (by omega), if_pos (by omega), e, List.getD_cons_succ]
          congr 1; omega
        · rw [if_neg (by omega), if_neg (by omega), if_neg (by omega)]

/-- A sequence of writes that does not fit answers the lowest offending address (42 R168). -/
theorem writeBytes_error (m : Memory) (a : Nat) (bs : List Byte) (hne : bs ≠ [])
    (h : Config.memSize < a + bs.length) :
    writeBytes m a bs = .error (max a Config.memSize) := by
  induction bs generalizing m a with
  | nil => exact absurd rfl hne
  | cons w rest ih =>
    simp only [List.length_cons, Config.memSize] at h
    simp only [writeBytes, memWrite, Config.memSize]
    by_cases ha : a < 4096
    · have hr : rest ≠ [] := by
        rintro rfl
        simp only [List.length_nil] at h
        omega
      simp only [ha, if_true]
      rw [ih (m.setByte a w) (a + 1) hr (by simp only [Config.memSize]; omega)]
      simp only [Config.memSize]
      congr 1
      omega
    · simp only [ha, if_false]
      congr 1
      omega

/-! ### The fetch -/

/-- The fetched word is the two bytes, where both exist (20_memory R54, R58). -/
theorem fetchWord_eq_some (m : Memory) (a : Nat) (op : Word) :
    fetchWord m a = some op ↔
      a + 1 < Config.memSize ∧ op = wordOfBytes (m.byteAt a) (m.byteAt (a + 1)) := by
  unfold fetchWord
  split <;> simp_all [eq_comm]

theorem fetchWord_eq_none (m : Memory) (a : Nat) :
    fetchWord m a = none ↔ Config.memSize ≤ a + 1 := by
  unfold fetchWord
  split <;> simp_all

/-! ### The stack -/

/-- A push with room writes the entry at `sp` and counts one more (10_state R27). -/
theorem State.push_eq_some (s : State) (w : Word) (h : s.sp.val < Config.stackDepth) :
    s.push w =
      some { s with stack := s.stack.set s.sp.val w h, sp := ⟨s.sp.val + 1, Nat.succ_lt_succ h⟩ } := by
  simp [State.push, h]

theorem State.push_eq_none (s : State) (w : Word) (h : s.sp.val = Config.stackDepth) :
    s.push w = none := by
  simp [State.push, h]

/-- A pop of a stack that is not empty answers the most recent entry and counts one less (10_state R27). -/
theorem State.pop_eq_some (s : State) (k : Nat) (hk : k + 1 = s.sp.val)
    (h : k < Config.stackDepth) :
    s.pop = some (s.stack[k], { s with sp := ⟨k, Nat.lt_succ_of_lt h⟩ }) := by
  obtain ⟨v, index, pc, sp, stack⟩ := s
  obtain ⟨j, hj⟩ := sp
  simp only at hk
  subst hk
  rfl

theorem State.pop_eq_none (s : State) (h : s.sp.val = 0) : s.pop = none := by
  obtain ⟨v, index, pc, sp, stack⟩ := s
  obtain ⟨j, hj⟩ := sp
  simp only at h
  subst h
  rfl

/-! ### The end of the cycle -/

/-- A timer counts down to 0 and stays there (44_keys_and_timers R220). -/
theorem decremented_toNat (b : Byte) : (decremented b).toNat = b.toNat - 1 := by
  unfold decremented
  split
  · next h => simp [h]
  · next h =>
    have : b.toNat ≠ 0 := fun e => h (BitVec.eq_of_toNat_eq (by simpa using e))
    have := b.isLt
    rw [BitVec.toNat_sub]
    simp
    omega

theorem State.afterExec_of_fault (s : State) (h : s.fault.isSome) : s.afterExec = s := by
  simp [State.afterExec, h]

theorem State.afterExec_of_none (s : State) (h : s.fault = none) : s.afterExec = s.endCycle := by
  simp [State.afterExec, h]

end Sys2Proof.Machine
end

