-- ==== Sys2Proof/Laws/Display.lean ====
section
/-! SUPPORT. The display surface: one cell read after a write, and what a whole sprite does to each cell
(spec 43_display R181, R182). -/

namespace Sys2Proof.Machine

theorem Grid.get_filled (b : Bool) (c : Col) (r : Row) : (Grid.filled b).get c r = b := by
  simp [Grid.get, Grid.filled]

theorem Grid.get_put (g : Grid) (c c' : Col) (r r' : Row) (b : Bool) :
    (g.put c r b).get c' r' = if c' = c ∧ r' = r then b else g.get c' r' := by
  simp only [Grid.get, Grid.put, Vector.getElem_set]
  by_cases hr : r' = r
  · subst hr
    by_cases hc : c' = c
    · subst hc; simp
    · have : ¬ c.val = c'.val := fun e => hc (Fin.ext e.symm)
      simp [hc, this]
  · have : ¬ r.val = r'.val := fun e => hr (Fin.ext e.symm)
    simp [hr, this]

/-- The target cells of two sprite bits differ. -/
def SpriteBit.apart (t u : SpriteBit) : Prop := t.col = u.col → t.row ≠ u.row

/-- A set sprite bit over the cell. -/
def SpriteBit.hits (c : Col) (r : Row) (t : SpriteBit) : Bool :=
  t.src && decide (c = t.col ∧ r = t.row)

theorem composeBit_px (d : Drawing) (t : SpriteBit) (c : Col) (r : Row) :
    (composeBit d t).surface.px.get c r = (d.surface.px.get c r ^^ t.hits c r) := by
  unfold composeBit SpriteBit.hits
  split
  · next h =>
    simp only [Grid.get_put, h, Bool.true_and]
    split
    · next e => obtain ⟨rfl, rfl⟩ := e; simp
    · next e => simp [e]
  · next h => simp [h]

theorem composeBit_dirty (d : Drawing) (t : SpriteBit) (c : Col) (r : Row) :
    (composeBit d t).surface.dirty.get c r = (d.surface.dirty.get c r || t.hits c r) := by
  unfold composeBit SpriteBit.hits
  split
  · next h =>
    simp only [Grid.get_put, h, Bool.true_and]
    split
    · next e => simp [e]
    · next e => simp [e]
  · next h => simp [h]

theorem composeBit_collision (d : Drawing) (t : SpriteBit) :
    (composeBit d t).collision = (d.collision || (t.src && d.surface.px.get t.col t.row)) := by
  unfold composeBit
  split <;> simp_all

theorem foldl_px (l : List SpriteBit) (d : Drawing) (c : Col) (r : Row)
    (hl : l.Pairwise SpriteBit.apart) :
    (l.foldl composeBit d).surface.px.get c r = (d.surface.px.get c r ^^ l.any (·.hits c r)) := by
  induction l generalizing d with
  | nil => simp
  | cons t rest ih =>
    rw [List.pairwise_cons] at hl
    rw [List.foldl_cons, ih _ hl.2, composeBit_px, List.any_cons]
    cases ht : t.hits c r with
    | false => simp
    | true =>
      have : rest.any (·.hits c r) = false := by
        simp only [SpriteBit.hits, Bool.and_eq_true, decide_eq_true_eq] at ht
        obtain ⟨-, rfl, rfl⟩ := ht
        simp only [List.any_eq_false, SpriteBit.hits, Bool.and_eq_true, decide_eq_true_eq, not_and]
        exact fun u hu _ hc => hl.1 u hu hc
      simp [this]

theorem foldl_dirty (l : List SpriteBit) (d : Drawing) (c : Col) (r : Row) :
    (l.foldl composeBit d).surface.dirty.get c r =
      (d.surface.dirty.get c r || l.any (·.hits c r)) := by
  induction l generalizing d with
  | nil => simp
  | cons t rest ih => rw [List.foldl_cons, ih, composeBit_dirty, List.any_cons, Bool.or_assoc]

theorem foldl_collision (l : List SpriteBit) (d : Drawing) (hl : l.Pairwise SpriteBit.apart) :
    (l.foldl composeBit d).collision =
      (d.collision || l.any fun t => t.src && d.surface.px.get t.col t.row) := by
  induction l generalizing d with
  | nil => simp
  | cons t rest ih =>
    rw [List.pairwise_cons] at hl
    rw [List.foldl_cons, ih _ hl.2, composeBit_collision, List.any_cons, Bool.or_assoc]
    congr 2
    rw [Bool.eq_iff_iff, List.any_eq_true, List.any_eq_true]
    refine exists_congr fun u => and_congr_right fun hu => ?_
    rw [composeBit_px]
    have : t.hits u.col u.row = false := by
      simp only [SpriteBit.hits, Bool.and_eq_false_iff, decide_eq_false_iff_not, not_and]
      exact Or.inr fun hc hr => hl.1 u hu hc.symm hr.symm
    simp [this]

theorem mem_rowBits (sx : Col) (sy : Row) (k : Nat) (b : Byte) (t : SpriteBit) :
    t ∈ rowBits sx sy k b ↔ ∃ j < 8,
      t = ⟨Fin.ofNat _ (sx.val + j), Fin.ofNat _ (sy.val + k), b.getLsbD (7 - j)⟩ := by
  simp [rowBits, eq_comm]

theorem mem_spriteBits (sx : Col) (sy : Row) (k : Nat) (rows : List Byte) (t : SpriteBit) :
    t ∈ spriteBits sx sy k rows ↔ ∃ i < rows.length, ∃ j < 8,
      t = ⟨Fin.ofNat _ (sx.val + j), Fin.ofNat _ (sy.val + (k + i)),
        (rows.getD i 0).getLsbD (7 - j)⟩ := by
  induction rows generalizing k with
  | nil => simp [spriteBits]
  | cons b bs ih =>
    simp only [spriteBits, List.mem_append, mem_rowBits, ih]
    constructor
    · rintro (⟨j, hj, rfl⟩ | ⟨i, hi, j, hj, rfl⟩)
      · exact ⟨0, by simp, j, hj, by simp⟩
      · exact ⟨i + 1, by simpa using hi, j, hj, by
          rw [List.getD_cons_succ, show k + 1 + i = k + (i + 1) by omega]⟩
    · rintro ⟨i, hi, j, hj, rfl⟩
      cases i with
      | zero => exact Or.inl ⟨j, hj, by simp⟩
      | succ i =>
        exact Or.inr ⟨i, by simpa using hi, j, hj, by
          rw [List.getD_cons_succ, show k + 1 + i = k + (i + 1) by omega]⟩

theorem rowBits_apart (sx : Col) (sy : Row) (k : Nat) (b : Byte) :
    (rowBits sx sy k b).Pairwise SpriteBit.apart := by
  refine List.Pairwise.map _ (R := fun i j => i < j ∧ j < 8) ?_ ?_
  · intro i j hij hc
    have := congrArg Fin.val hc
    simp only [Fin.val_ofNat, Config.dispW] at this
    omega
  · rw [List.pairwise_iff_getElem]
    intro i j hi hj hij
    simp only [List.length_range] at hi hj
    simpa using ⟨hij, hj⟩

/-- The target cells of one draw are pairwise distinct (43_display R182). -/
theorem spriteBits_apart (sx : Col) (sy : Row) (k : Nat) (rows : List Byte)
    (h : k + rows.length ≤ 32) : (spriteBits sx sy k rows).Pairwise SpriteBit.apart := by
  induction rows generalizing k with
  | nil => simp [spriteBits]
  | cons b bs ih =>
    simp only [List.length_cons] at h
    refine List.pairwise_append.2 ⟨rowBits_apart .., ih (k + 1) (by omega), ?_⟩
    intro t ht u hu _ hr
    obtain ⟨j, -, rfl⟩ := (mem_rowBits ..).1 ht
    obtain ⟨i, hi, j', -, rfl⟩ := (mem_spriteBits ..).1 hu
    have := congrArg Fin.val hr
    simp only [Fin.val_ofNat, Config.dispH] at this
    omega

/-- A set sprite bit is over a cell exactly when the cell's offsets from the start name a set bit
(43_display R182). -/
theorem spriteBits_any_hits (sx : Col) (sy : Row) (rows : List Byte) (h : rows.length ≤ 32) (c : Col)
    (r : Row) :
    (spriteBits sx sy 0 rows).any (·.hits c r) =
      sourceBit (fun k => rows.getD k 0) rows.length sx.val sy.val c r := by
  rw [Bool.eq_iff_iff]
  have hsx := sx.isLt
  have hsy := sy.isLt
  have hc := c.isLt
  have hr := r.isLt
  simp only [Config.dispW, Config.dispH] at hsx hsy hc hr
  simp only [List.any_eq_true, mem_spriteBits, SpriteBit.hits, sourceBit, Bool.and_eq_true,
    decide_eq_true_eq]
  constructor
  · rintro ⟨t, ⟨i, hi, j, hj, rfl⟩, hs, hct, hrt⟩
    have e1 := congrArg Fin.val hct
    have e2 := congrArg Fin.val hrt
    simp only [Fin.val_ofNat, Config.dispW, Config.dispH, Nat.zero_add] at e1 e2
    have hj' : (c.val + 64 - sx.val) % 64 = j := by omega
    have hi' : (r.val + 32 - sy.val) % 32 = i := by omega
    rw [hj', hi']
    exact ⟨⟨hi, hj⟩, hs⟩
  · rintro ⟨⟨hi, hj⟩, hs⟩
    refine ⟨_, ⟨_, hi, _, hj, rfl⟩, hs, Fin.ext ?_, Fin.ext ?_⟩
    · simp only [Fin.val_ofNat, Config.dispW]; omega
    · simp only [Fin.val_ofNat, Config.dispH, Nat.zero_add]; omega

/-- Operation `compose`, cell by cell: a pixel is inverted and marked dirty exactly under a set source bit,
and the draw collides exactly when a set source bit is over a set pixel (43_display R182, R191). -/
theorem compose_spec (f : Surface) (sx : Col) (sy : Row) (rows : List Byte) (h : rows.length ≤ 32) :
    (∀ c r, (compose f sx sy rows).surface.px.get c r =
      (f.px.get c r ^^ sourceBit (fun k => rows.getD k 0) rows.length sx.val sy.val c r)) ∧
    (∀ c r, (compose f sx sy rows).surface.dirty.get c r =
      (f.dirty.get c r || sourceBit (fun k => rows.getD k 0) rows.length sx.val sy.val c r)) ∧
    ((compose f sx sy rows).collision = true ↔ ∃ c r,
      sourceBit (fun k => rows.getD k 0) rows.length sx.val sy.val c r = true ∧
        f.px.get c r = true) := by
  have ha := spriteBits_apart sx sy 0 rows (by omega)
  refine ⟨fun c r => ?_, fun c r => ?_, ?_⟩
  · rw [compose, foldl_px _ _ _ _ ha, spriteBits_any_hits _ _ _ h]
  · rw [compose, foldl_dirty, spriteBits_any_hits _ _ _ h]
  · rw [compose, foldl_collision _ _ ha, Bool.false_or, List.any_eq_true]
    constructor
    · rintro ⟨t, ht, hs⟩
      rw [Bool.and_eq_true] at hs
      refine ⟨t.col, t.row, ?_, hs.2⟩
      rw [← spriteBits_any_hits _ _ _ h, List.any_eq_true]
      exact ⟨t, ht, by simp [SpriteBit.hits, hs.1]⟩
    · rintro ⟨c, r, hb, hp⟩
      rw [← spriteBits_any_hits _ _ _ h, List.any_eq_true] at hb
      obtain ⟨t, ht, hh⟩ := hb
      simp only [SpriteBit.hits, Bool.and_eq_true, decide_eq_true_eq] at hh
      obtain ⟨hs, rfl, rfl⟩ := hh
      exact ⟨t, ht, by simp [hs, hp]⟩

end Sys2Proof.Machine
end

