-- ==== Sys2Proof/Laws/Operands.lean ====
section
/-! SUPPORT. What the operand forms give, and the shared operation of the storing instructions. -/

namespace Sys2Proof.Machine

theorem addrOperand_toNat (nnn : Addr12) : (addrOperand nnn).toNat = nnn.toNat := by
  have := nnn.isLt
  simp [addrOperand, Nat.mod_eq_of_lt (show nnn.toNat < 65536 by omega)]

theorem wide_toNat (b : Byte) : (wide b).toNat = b.toNat := by
  have := b.isLt
  simp [wide, Nat.mod_eq_of_lt (show b.toNat < 65536 by omega)]

/-- The pressed key is the one the byte numbers (44_keys_and_timers R211). -/
theorem keyIs_iff (k : KeySample) (b : Byte) :
    keyIs k b = true ↔ ∃ key, k = some key ∧ key.val = b.toNat := by
  cases k <;> simp [keyIs]

theorem keyByte_toNat (k : Key) : (keyByte k).toNat = k.val := by
  have := k.isLt
  simp only [keyByte, BitVec.toNat_ofNat]
  omega

theorem State.regsUpTo_length (s : State) (x : Reg) : (s.regsUpTo x).length = x.val + 1 := by
  have := x.isLt
  simp only [State.regsUpTo, List.length_take, Vector.length_toList]
  omega

/-- Byte `k` of the registers dumped is `V[k]` (42_index_and_memory R165). -/
theorem State.regsUpTo_getD (s : State) (x k : Reg) (h : k ≤ x) :
    (s.regsUpTo x).getD k.val 0 = s.reg k := by
  have hk : k.val < x.val + 1 := Nat.lt_succ_of_le h
  rw [List.getD_eq_getElem _ _ (by rw [State.regsUpTo_length]; exact hk)]
  simp [State.regsUpTo, State.reg]

/-- Registers loaded from `k` on hold the bytes, the others what they held (42_index_and_memory R166). -/
theorem loadFrom_getElem (v : Vector Byte 16) (k : Nat) (bs : List Byte) (y : Nat) (hy : y < 16) :
    (loadFrom v k bs)[y] = if k ≤ y ∧ y < k + bs.length then bs.getD (y - k) 0 else v[y] := by
  induction bs generalizing v k with
  | nil => rw [if_neg (by simp)]; rfl
  | cons b rest ih =>
    rw [loadFrom, ih, List.length_cons]
    rcases Nat.lt_trichotomy y k with hlt | rfl | hgt
    · rw [if_neg (by omega), if_neg (by omega), Vector.getElem_setIfInBounds_ne]
      omega
    · rw [if_neg (by omega), if_pos (by omega), Vector.getElem_setIfInBounds_self, Nat.sub_self]
      rfl
    · by_cases h : y < k + 1 + rest.length
      · rw [if_pos (by omega), if_pos (by omega), show y - k = y - (k + 1) + 1 by omega,
          List.getD_cons_succ]
      · rw [if_neg (by omega), if_neg (by omega), Vector.getElem_setIfInBounds_ne]
        omega

/-- A store that fits: exactly the bytes change, and the core goes on (42_index_and_memory R164, R165). -/
theorem State.storeAtIndex_ok (s : State) (op : Word) (bs : List Byte)
    (h : s.base + bs.length ≤ Config.memSize) :
    ∃ m, s.storeAtIndex op bs = (s.setMem m).advance ∧ (s.mem.wf → m.wf) ∧
      ∀ b, m.byteAt b =
        if s.base ≤ b ∧ b < s.base + bs.length then bs.getD (b - s.base) 0 else s.mem.byteAt b := by
  obtain ⟨m, hm, hwf, hb⟩ := writeBytes_ok s.mem s.base bs (Or.inr h)
  exact ⟨m, by simp [State.storeAtIndex, hm], hwf, hb⟩

/-- A store that does not fit: a fault with the lowest offending address, and nothing else
(42_index_and_memory R168). -/
theorem State.storeAtIndex_fault (s : State) (op : Word) (bs : List Byte) (hne : bs ≠ [])
    (h : Config.memSize < s.base + bs.length) :
    s.storeAtIndex op bs =
      s.raise .memOutOfRange (some op) (some (max s.base Config.memSize)) := by
  simp [State.storeAtIndex, writeBytes_error _ _ _ hne h]

end Sys2Proof.Machine
end

