-- ==== Sys2Proof/Laws/Exec.lean ====
section
/-! SUPPORT. The meanings with more than one case, case by case: what provers cite instead of unfolding a
meaning; and one step, case by case (spec 40_cycle_and_control R100). -/

namespace Sys2Proof.Machine

/-- `RET` with a live entry (R105). -/
theorem execRet_of_entry (s : State) (k : Nat) (hk : k + 1 = s.sp.val)
    (h : k < Config.stackDepth) :
    execRet s = .next (State.goTo { s with sp := ⟨k, Nat.lt_succ_of_lt h⟩ } (s.stack[k] + 2)) := by
  simp only [execRet, s.pop_eq_some k hk h]

/-- `RET` with an empty stack (R105, 60_exceptions R243). -/
theorem execRet_of_empty (s : State) (h : s.sp.val = 0) :
    execRet s = .next (s.raise .stackUnderflow (some (encode .ret)) none) := by
  simp only [execRet, s.pop_eq_none h]

/-- `CALL` with room (R107). -/
theorem execCall_of_room (s : State) (nnn : Addr12) (h : s.sp.val < Config.stackDepth) :
    execCall nnn s = .next (State.goTo
      { s with stack := s.stack.set s.sp.val s.pc h, sp := ⟨s.sp.val + 1, Nat.succ_lt_succ h⟩ }
      (addrOperand nnn)) := by
  simp only [execCall, s.push_eq_some s.pc h]

/-- `CALL` with a full stack (R107, 60_exceptions R242). -/
theorem execCall_of_full (s : State) (nnn : Addr12) (h : s.sp.val = Config.stackDepth) :
    execCall nnn s = .next (s.raise .stackOverflow (some (encode (.call nnn))) none) := by
  simp only [execCall, s.push_eq_none s.pc h]

/-- `LD Vx, [I]` inside memory (42_index_and_memory R166). -/
theorem execLoad_of_inside (x : Reg) (s : State) (h : s.base + (x.val + 1) ≤ Config.memSize) :
    execLoad x s = .next (s.setRegs (loadFrom s.v 0
      ((List.range (x.val + 1)).map fun k => s.mem.byteAt (s.base + k)))).advance := by
  simp only [execLoad, readBytes_eq, if_pos (Or.inr h)]

/-- `LD Vx, [I]` past the end of memory (42_index_and_memory R166, R168). -/
theorem execLoad_of_outside (x : Reg) (s : State) (h : Config.memSize < s.base + (x.val + 1)) :
    execLoad x s = .next (s.raise .memOutOfRange (some (encode (.load x)))
      (some (max s.base Config.memSize))) := by
  have hn : ¬ (x.val + 1 = 0 ∨ s.base + (x.val + 1) ≤ Config.memSize) := by omega
  simp only [execLoad, readBytes_eq, if_neg hn]

/-- The row bytes of a sprite (43_display R190). -/
def State.spriteRows (s : State) (n : Nibble) : List Byte :=
  (List.range n.toNat).map fun k => s.mem.byteAt (s.base + k)

/-- `DRW` inside memory, or with no rows (43_display R190). -/
theorem execDrw_of_inside (x y : Reg) (n : Nibble) (s : State)
    (h : n.toNat = 0 ∨ s.base + n.toNat ≤ Config.memSize) :
    execDrw x y n s = .next ((s.setDisplay (compose s.display (startCol (s.reg x))
      (startRow (s.reg y)) (s.spriteRows n)).surface).setReg vf
        (flagByte (compose s.display (startCol (s.reg x)) (startRow (s.reg y))
          (s.spriteRows n)).collision)).advance := by
  simp only [execDrw, readBytes_eq, if_pos h, State.spriteRows]

/-- `DRW` past the end of memory (43_display R190, 42_index_and_memory R168). -/
theorem execDrw_of_outside (x y : Reg) (n : Nibble) (s : State)
    (h : ¬ (n.toNat = 0 ∨ s.base + n.toNat ≤ Config.memSize)) :
    execDrw x y n s = .next (s.raise .memOutOfRange (some (encode (.drw x y n)))
      (some (max s.base Config.memSize))) := by
  simp only [execDrw, readBytes_eq, if_neg h]

/-- The wait for a key with no key pressed (44_keys_and_timers R213). -/
theorem State.awaitKey_of_none (s : State) (x : Reg) (h : s.key = none) :
    s.awaitKey x = s.goTo s.pc := by
  simp only [State.awaitKey, h]

/-- The wait for a key with a key pressed (44_keys_and_timers R213). -/
theorem State.awaitKey_of_some (s : State) (x : Reg) (k : Key) (h : s.key = some k) :
    s.awaitKey x = (s.setReg x (keyByte k)).advance := by
  simp only [State.awaitKey, h]

/-! ### One step -/

theorem step_of_faulted (s : State) (h : s.fault.isSome) : step s = .next s := by
  simp [step, tickOnce, h]

theorem step_of_noFetch (s : State) (h : s.fault = none) (hp : Config.memSize ≤ s.pc.toNat + 1) :
    step s = .next (s.raise .fetchOutOfRange none (some s.pc.toNat)) := by
  simp [step, tickOnce, h, cycle, (fetchWord_eq_none _ _).2 hp]

theorem step_of_word (s : State) (h : s.fault = none) (hp : s.pc.toNat + 1 < Config.memSize) :
    step s = runWord s.wordAtPc s := by
  simp [step, tickOnce, h, cycle, (fetchWord_eq_some _ _ _).2 ⟨hp, rfl⟩, State.wordAtPc]

theorem step_of_illegal (s : State) (h : s.fault = none) (hp : s.pc.toNat + 1 < Config.memSize)
    (hd : decode s.wordAtPc = none) :
    step s = .next (s.raise .decodeFault (some s.wordAtPc) none) := by
  simp [step_of_word s h hp, runWord, hd]

theorem step_of_fetches (s : State) (i : Instr) (h : Fetches s i) : step s = runDecoded i s := by
  simp [step_of_word s h.1 h.2.1, runWord, h.2.2]

/-- A step of a fetched instruction whose effect raises no fault ends the cycle (R100). -/
theorem step_of_exec (s t : State) (i : Instr) (h : Fetches s i) (ht : exec i s = .next t)
    (hf : t.fault = none) : step s = .next t.endCycle := by
  simp [step_of_fetches s i h, runDecoded, ht, t.afterExec_of_none hf]

end Sys2Proof.Machine
end

