-- ==== Sys2Proof/Laws/Env.lean ====
section
/-! SUPPORT. What a tick with a key sample, a run, and the test for the end of a run can do (spec 00_scope
R18, 60_exceptions R256): what provers cite instead of unfolding them. -/

namespace Sys2Proof.Machine

@[simp] theorem presentKey_key (s : State) (k : KeySample) : (presentKey s k).key = k := rfl

/-- Announcing a key changes nothing that the fetch reads. -/
theorem fetches_presentKey (s : State) (k : KeySample) (i : Instr) :
    Fetches (presentKey s k) i ↔ Fetches s i := Iff.rfl

/-! ### One tick -/

theorem tick_of_step {s t : State} {k : KeySample} (h : step (presentKey s k) = .next t) :
    tick s k = .next (t.setKeys s.keys) := by
  simp only [tick, h]

/-- A tick of a faulted core changes nothing (60_exceptions R248). -/
theorem tick_of_faulted (s : State) (k : KeySample) (h : s.fault.isSome) : tick s k = .next s := by
  rw [tick_of_step (step_of_faulted (presentKey s k) h)]
  rfl

/-- A tick whose cycle completes (40_cycle_and_control R100). -/
theorem tick_of_exec (s t : State) (k : KeySample) (i : Instr) (h : Fetches s i)
    (ht : exec i (presentKey s k) = .next t) (hf : t.fault = none) :
    tick s k = .next (t.endCycle.setKeys s.keys) :=
  tick_of_step (step_of_exec _ t i ((fetches_presentKey s k i).2 h) ht hf)

/-! ### A run -/

@[simp] theorem runTicks_nil (s : State) : runTicks [] s = .next s := rfl

theorem runTicks_cons {s t : State} {k : KeySample} (h : tick s k = .next t) (ks : List KeySample) :
    runTicks (k :: ks) s = runTicks ks t := by
  simp only [runTicks, h]

/-- A run in two parts. -/
theorem runTicks_append (ks ls : List KeySample) (s t : State) (h : runTicks ks s = .next t) :
    runTicks (ks ++ ls) s = runTicks ls t := by
  induction ks generalizing s with
  | nil => rw [runTicks_nil] at h; injection h with h; rw [h, List.nil_append]
  | cons k ks ih =>
    cases hk : tick s k with
    | next u => rw [List.cons_append, runTicks_cons hk, ih u (runTicks_cons hk ks ▸ h)]
    | fault r => simp only [runTicks, hk] at h; cases h
    | refused r => simp only [runTicks, hk] at h; cases h

/-! ### The end of a run -/

/-- The core is at a self-jump exactly when the word at `pc` is the jump to `pc` (00_scope R18). -/
theorem State.atSelfJump_iff (s : State) : s.atSelfJump = true ↔
    s.pc.toNat + 1 < Config.memSize ∧ s.wordAtPc = encode (.jp (s.pc.setWidth 12)) := by
  rw [State.atSelfJump, beq_iff_eq, fetchWord_eq_some]
  exact and_congr_right fun _ => eq_comm

/-- A run has ended as a failure exactly when a fault is recorded (60_exceptions R248). -/
theorem State.runStatus_eq_faulted (s : State) : s.runStatus = .faulted ↔ s.fault.isSome := by
  unfold State.runStatus
  split
  · simp_all
  · split <;> simp_all

/-- A run has come to its conventional end exactly at a self-jump with both timers at 0 (00_scope R18). -/
theorem State.runStatus_eq_idle (s : State) : s.runStatus = .idle ↔
    s.fault = none ∧ s.atSelfJump = true ∧ s.dt = 0 ∧ s.st = 0 := by
  unfold State.runStatus
  cases hf : s.fault
  · by_cases hj : s.atSelfJump = true <;> by_cases hd : s.dt = 0 <;> by_cases hs : s.st = 0 <;>
      simp [hj, hd, hs]
  · simp

end Sys2Proof.Machine
end

