-- ==== Sys2Proof/Laws/PerInstr.lean ====
section
/-! SUPPORT. Statements for all instructions, one lemma for each constructor. TableRow: the word of an
instruction meets the mask and the pattern of its row of the opcode table (spec 30_encoding R78). -/

namespace Sys2Proof.Laws.TableRow

/-- The word of the instruction meets its row of the opcode table. -/
def Statement (i : Instr) : Prop := (rowOf i).accepts (encode i) = true

/-! ### What the masks of the table leave of a word -/

theorem and_full (c : Nibble) : c &&& 15#4 = c := BitVec.and_allOnes

theorem and_full_byte (b : Byte) : b &&& 255#8 = b := BitVec.and_allOnes

theorem nnn_mask (c : Nibble) (nnn : Addr12) : wordNNN c nnn &&& 0xF000#16 = wordNNN c 0 := by
  show (c ++ nnn : BitVec (4 + 12)) &&& (0xF#4 ++ 0x000#12) = c ++ 0#12
  rw [BitVec.and_append]
  simp [and_full]

theorem xkk_class_mask (c : Nibble) (x : Reg) (kk : Byte) :
    wordXKK c x kk &&& 0xF000#16 = wordXKK c 0 0 := by
  show (c ++ (BitVec.ofFin x : Nibble) ++ kk : BitVec (4 + 4 + 8)) &&& (0xF#4 ++ 0x0#4 ++ 0x00#8) =
    c ++ 0#4 ++ 0#8
  rw [BitVec.and_append, BitVec.and_append]
  simp [and_full]

theorem xkk_byte_mask (c : Nibble) (x : Reg) (kk : Byte) :
    wordXKK c x kk &&& 0xF0FF#16 = wordXKK c 0 kk := by
  show (c ++ (BitVec.ofFin x : Nibble) ++ kk : BitVec (4 + 4 + 8)) &&& (0xF#4 ++ 0x0#4 ++ 0xFF#8) =
    c ++ 0#4 ++ kk
  rw [BitVec.and_append, BitVec.and_append]
  simp [and_full, and_full_byte]

theorem xyn_class_mask (c : Nibble) (x y : Reg) (n : Nibble) :
    wordXYN c x y n &&& 0xF000#16 = wordXYN c 0 0 0 := by
  show (c ++ (BitVec.ofFin x : Nibble) ++ (BitVec.ofFin y : Nibble) ++ n : BitVec (4 + 4 + 4 + 4)) &&&
    (0xF#4 ++ 0x0#4 ++ 0x0#4 ++ 0x0#4) = c ++ 0#4 ++ 0#4 ++ 0#4
  rw [BitVec.and_append, BitVec.and_append, BitVec.and_append]
  simp [and_full]

theorem xyn_nibble_mask (c : Nibble) (x y : Reg) (n : Nibble) :
    wordXYN c x y n &&& 0xF00F#16 = wordXYN c 0 0 n := by
  show (c ++ (BitVec.ofFin x : Nibble) ++ (BitVec.ofFin y : Nibble) ++ n : BitVec (4 + 4 + 4 + 4)) &&&
    (0xF#4 ++ 0x0#4 ++ 0x0#4 ++ 0xF#4) = c ++ 0#4 ++ 0#4 ++ n
  rw [BitVec.and_append, BitVec.and_append, BitVec.and_append]
  simp [and_full]

/-! ### One lemma for each constructor -/

theorem cls : Statement .cls := rfl

theorem ret : Statement .ret := rfl

theorem jp (nnn : Addr12) : Statement (.jp nnn) := by
  unfold Statement rowOf encode OpcodeRow.accepts
  rw [nnn_mask]
  rfl

theorem call (nnn : Addr12) : Statement (.call nnn) := by
  unfold Statement rowOf encode OpcodeRow.accepts
  rw [nnn_mask]
  rfl

theorem seImm (x : Reg) (kk : Byte) : Statement (.seImm x kk) := by
  unfold Statement rowOf encode OpcodeRow.accepts
  rw [xkk_class_mask]
  rfl

theorem sneImm (x : Reg) (kk : Byte) : Statement (.sneImm x kk) := by
  unfold Statement rowOf encode OpcodeRow.accepts
  rw [xkk_class_mask]
  rfl

theorem seReg (x : Reg) (y : Reg) (n : Nibble) : Statement (.seReg x y n) := by
  unfold Statement rowOf encode OpcodeRow.accepts
  rw [xyn_class_mask]
  rfl

theorem sneReg (x : Reg) (y : Reg) (n : Nibble) : Statement (.sneReg x y n) := by
  unfold Statement rowOf encode OpcodeRow.accepts
  rw [xyn_class_mask]
  rfl

theorem ldImm (x : Reg) (kk : Byte) : Statement (.ldImm x kk) := by
  unfold Statement rowOf encode OpcodeRow.accepts
  rw [xkk_class_mask]
  rfl

theorem addImm (x : Reg) (kk : Byte) : Statement (.addImm x kk) := by
  unfold Statement rowOf encode OpcodeRow.accepts
  rw [xkk_class_mask]
  rfl

theorem ldReg (x : Reg) (y : Reg) : Statement (.ldReg x y) := by
  unfold Statement rowOf encode OpcodeRow.accepts
  rw [xyn_nibble_mask]
  rfl

theorem orReg (x : Reg) (y : Reg) : Statement (.orReg x y) := by
  unfold Statement rowOf encode OpcodeRow.accepts
  rw [xyn_nibble_mask]
  rfl

theorem andReg (x : Reg) (y : Reg) : Statement (.andReg x y) := by
  unfold Statement rowOf encode OpcodeRow.accepts
  rw [xyn_nibble_mask]
  rfl

theorem xorReg (x : Reg) (y : Reg) : Statement (.xorReg x y) := by
  unfold Statement rowOf encode OpcodeRow.accepts
  rw [xyn_nibble_mask]
  rfl

theorem addReg (x : Reg) (y : Reg) : Statement (.addReg x y) := by
  unfold Statement rowOf encode OpcodeRow.accepts
  rw [xyn_nibble_mask]
  rfl

theorem subReg (x : Reg) (y : Reg) : Statement (.subReg x y) := by
  unfold Statement rowOf encode OpcodeRow.accepts
  rw [xyn_nibble_mask]
  rfl

theorem subnReg (x : Reg) (y : Reg) : Statement (.subnReg x y) := by
  unfold Statement rowOf encode OpcodeRow.accepts
  rw [xyn_nibble_mask]
  rfl

theorem shr (x : Reg) (y : Reg) : Statement (.shr x y) := by
  unfold Statement rowOf encode OpcodeRow.accepts
  rw [xyn_nibble_mask]
  rfl

theorem shl (x : Reg) (y : Reg) : Statement (.shl x y) := by
  unfold Statement rowOf encode OpcodeRow.accepts
  rw [xyn_nibble_mask]
  rfl

theorem ldI (nnn : Addr12) : Statement (.ldI nnn) := by
  unfold Statement rowOf encode OpcodeRow.accepts
  rw [nnn_mask]
  rfl

theorem jpV0 (nnn : Addr12) : Statement (.jpV0 nnn) := by
  unfold Statement rowOf encode OpcodeRow.accepts
  rw [nnn_mask]
  rfl

theorem rnd (x : Reg) (kk : Byte) : Statement (.rnd x kk) := by
  unfold Statement rowOf encode OpcodeRow.accepts
  rw [xkk_class_mask]
  rfl

theorem drw (x : Reg) (y : Reg) (n : Nibble) : Statement (.drw x y n) := by
  unfold Statement rowOf encode OpcodeRow.accepts
  rw [xyn_class_mask]
  rfl

theorem skp (x : Reg) : Statement (.skp x) := by
  unfold Statement rowOf encode OpcodeRow.accepts
  rw [xkk_byte_mask]
  rfl

theorem sknp (x : Reg) : Statement (.sknp x) := by
  unfold Statement rowOf encode OpcodeRow.accepts
  rw [xkk_byte_mask]
  rfl

theorem ldKey (x : Reg) : Statement (.ldKey x) := by
  unfold Statement rowOf encode OpcodeRow.accepts
  rw [xkk_byte_mask]
  rfl

theorem ldFromDt (x : Reg) : Statement (.ldFromDt x) := by
  unfold Statement rowOf encode OpcodeRow.accepts
  rw [xkk_byte_mask]
  rfl

theorem ldDt (x : Reg) : Statement (.ldDt x) := by
  unfold Statement rowOf encode OpcodeRow.accepts
  rw [xkk_byte_mask]
  rfl

theorem ldSt (x : Reg) : Statement (.ldSt x) := by
  unfold Statement rowOf encode OpcodeRow.accepts
  rw [xkk_byte_mask]
  rfl

theorem addI (x : Reg) : Statement (.addI x) := by
  unfold Statement rowOf encode OpcodeRow.accepts
  rw [xkk_byte_mask]
  rfl

theorem ldF (x : Reg) : Statement (.ldF x) := by
  unfold Statement rowOf encode OpcodeRow.accepts
  rw [xkk_byte_mask]
  rfl

theorem ldB (x : Reg) : Statement (.ldB x) := by
  unfold Statement rowOf encode OpcodeRow.accepts
  rw [xkk_byte_mask]
  rfl

theorem dump (x : Reg) : Statement (.dump x) := by
  unfold Statement rowOf encode OpcodeRow.accepts
  rw [xkk_byte_mask]
  rfl

theorem load (x : Reg) : Statement (.load x) := by
  unfold Statement rowOf encode OpcodeRow.accepts
  rw [xkk_byte_mask]
  rfl

end Sys2Proof.Laws.TableRow
end

