-- ==== Sys2Proof/Tests/Slice0.lean ====
section
/-! SUPPORT. Tests, and a witness for every statement with hypotheses. Expected results come from the spec:
the vector named beside each test is one of 95_test_vectors; the others follow from the rule cited. -/

namespace Sys2Proof.Tests
open Sys2Proof Sys2Proof.Machine

/-! ### Small states -/

/-- The state after reset with the dirty set drained (95_test_vectors, conventions). -/
def drained : State := (drain State.reset).2

/-- That state with a word where the next fetch reads it. -/
def holding (op : Nat) : State := drained.withFetchWord 16 op

/-- Registers written. -/
def regs (s : State) : List (Reg × Byte) → State
  | [] => s
  | (x, b) :: rest => regs (s.setReg x b) rest

/-- Bytes put to memory from an address on. -/
def bytes (s : State) (a : Nat) (l : List Byte) : State :=
  match writeBytes s.mem a l with
  | .ok m => s.setMem m
  | .error _ => s

/-- The grid of some cells, each given as column and row. -/
def marked (cells : List (Col × Row)) : Grid :=
  cells.foldl (fun g c => g.put c.1 c.2 true) (Grid.filled false)

/-- The state with some pixels set. -/
def lit (s : State) (cells : List (Col × Row)) : State := s.setDisplay ⟨marked cells, s.display.dirty⟩

/-- A next state that passes a check. -/
def next (r : Result) (p : State → Bool) : Bool :=
  match r with
  | .next t => p t
  | .fault _ => false
  | .refused _ => false

/-- The bytes from an address on. -/
def read (s : State) (a n : Nat) : List Byte := (List.range n).map fun k => s.mem.byteAt (a + k)

/-- The first registers. -/
def first (s : State) (n : Nat) : List Byte := s.v.toList.take n

/-! ### WellFormed: ill-formed data each check refuses -/

theorem test_image_of_3584_bytes_fits : imageFits (List.replicate 3584 0) = true := by
  simp only [imageFits, List.length_replicate, Config.memSize, Config.memStart]
  decide

theorem test_image_of_3585_bytes_is_refused : imageFits (List.replicate 3585 0) = false := by
  simp only [imageFits, List.length_replicate, Config.memSize, Config.memStart]
  decide

theorem test_sizes_canonical : sizesOk 4096 0x200 16 64 32 = true := by decide

theorem test_sizes_program_space : sizesOk 513 0x200 16 64 32 = false := by decide

theorem test_sizes_memory_too_large : sizesOk 65537 0x200 16 64 32 = false := by decide

theorem test_sizes_font_overlaps : sizesOk 4096 79 16 64 32 = false := by decide

theorem test_sizes_narrow : sizesOk 4096 0x200 16 7 32 = false := by decide

theorem test_sizes_low : sizesOk 4096 0x200 16 64 14 = false := by decide

theorem test_sizes_no_stack : sizesOk 4096 0x200 0 64 32 = false := by decide

/-! ### Decoding: words written out from the encodings of 30_encoding R78 -/

/-- A word decodes to the instruction, and the instruction is encoded as the word. -/
def reads (op : Word) (i : Instr) : Bool := decode op == some i && encode i == op

theorem test_decode_control :
    reads 0x00E0 .cls && reads 0x00EE .ret && reads 0x1204 (.jp 0x204) && reads 0x2210 (.call 0x210) &&
      reads 0xB300 (.jpV0 0x300) = true := by decide

theorem test_decode_skips :
    reads 0x3A05 (.seImm 10 0x05) && reads 0x4311 (.sneImm 3 0x11) && reads 0x5127 (.seReg 1 2 7) &&
      reads 0x912F (.sneReg 1 2 15) = true := by decide

theorem test_decode_load_and_logic :
    reads 0x6A3C (.ldImm 10 0x3C) && reads 0x70FF (.addImm 0 0xFF) && reads 0x8120 (.ldReg 1 2) &&
      reads 0x8121 (.orReg 1 2) && reads 0x8122 (.andReg 1 2) && reads 0x8123 (.xorReg 1 2) = true := by
  decide

theorem test_decode_arithmetic :
    reads 0x8124 (.addReg 1 2) && reads 0x8125 (.subReg 1 2) && reads 0x8126 (.shr 1 2) &&
      reads 0x8127 (.subnReg 1 2) && reads 0x812E (.shl 1 2) && reads 0xC30F (.rnd 3 0x0F) = true := by
  decide

theorem test_decode_display_and_keys :
    reads 0xD234 (.drw 2 3 4) && reads 0xE29E (.skp 2) && reads 0xE2A1 (.sknp 2) &&
      reads 0xF30A (.ldKey 3) = true := by decide

theorem test_decode_timers :
    reads 0xF407 (.ldFromDt 4) && reads 0xF315 (.ldDt 3) && reads 0xF518 (.ldSt 5) = true := by decide

theorem test_decode_index_and_memory :
    reads 0xA300 (.ldI 0x300) && reads 0xF21E (.addI 2) && reads 0xF029 (.ldF 0) && reads 0xF033 (.ldB 0) &&
      reads 0xFF55 (.dump 15) && reads 0xF265 (.load 2) = true := by decide

/-- T-X1 to T-X11. -/
theorem test_decode_illegal :
    ([0x0000, 0x00E1, 0x0123, 0x8128, 0x812F, 0xE09F, 0xE000, 0xF000, 0xF01F, 0xF075, 0xF0FF] :
      List Word).all (fun op => decode op == none) = true := by decide

/-- The two bytes of a word lie in memory with the high byte first (20_memory R54). -/
theorem test_word_is_big_endian : read (holding 0x6A3C) 0x200 2 = [0x6A, 0x3C] := by decide

theorem test_table_word : decodeTableWord 16 0x6A3C = some (.ldImm 10 0x3C) := by decide

/-! ### Control and skips -/

/-- T-X1: the first tick with nothing loaded. -/
theorem test_reset_runs_nothing : next (step State.reset) (fun t =>
    t.fault == some ⟨.decodeFault, some 0x0000, 0x200, none⟩ && t.pc == 0x200) = true := by decide

/-- T-C1. -/
theorem test_jp : next (step (holding 0x1204)) (fun t => t.pc == 0x204) = true := by decide

/-- T-C9. -/
theorem test_call : next (step { holding 0x2300 with sp := 15 }) (fun t =>
    t.stack[15] == 0x200 && t.sp == 16 && t.pc == 0x300) = true := by decide

/-- T-C8. -/
theorem test_call_full : next (step { holding 0x2300 with sp := 16 }) (fun t =>
    t.fault == some ⟨.stackOverflow, some 0x2300, 0x200, none⟩ && t.sp == 16 && t.pc == 0x200) = true := by
  decide

/-- A stack with one live entry. -/
def called (op : Nat) : State := { holding op with sp := 1, stack := drained.stack.set 0 0x204 }

/-- T-C6. -/
theorem test_ret : next (step (called 0x00EE)) (fun t =>
    t.sp == 0 && t.pc == 0x206 && t.stack[0] == 0x204) = true := by decide

/-- T-C7. -/
theorem test_ret_empty : next (step (holding 0x00EE)) (fun t =>
    t.fault == some ⟨.stackUnderflow, some 0x00EE, 0x200, none⟩ && t.pc == 0x200) = true := by
  decide

/-- T-C11. -/
theorem test_jpV0 : next (step (regs (holding 0xBFFF) [(0, 0xFF)])) (fun t => t.pc == 0x10FE) = true := by
  decide

/-- T-C12. -/
theorem test_seImm_equal : next (step (holding 0x3000)) (fun t => t.pc == 0x204) = true := by
  decide

/-- T-C13. -/
theorem test_seImm_differ : next (step (regs (holding 0x3000) [(0, 1)])) (fun t =>
    t.pc == 0x202) = true := by decide

/-- T-C14. -/
theorem test_sneImm_differ : next (step (regs (holding 0x4311) [(3, 0x10)])) (fun t =>
    t.pc == 0x204) = true := by decide

/-- T-C15. -/
theorem test_sneImm_equal : next (step (regs (holding 0x4310) [(3, 0x10)])) (fun t =>
    t.pc == 0x202) = true := by decide

/-- T-C17. -/
theorem test_seReg_equal : next (step (regs (holding 0x5127) [(1, 3), (2, 3)])) (fun t =>
    t.pc == 0x204) = true := by decide

/-- T-C18. -/
theorem test_seReg_differ : next (step (regs (holding 0x5120) [(1, 3), (2, 4)])) (fun t =>
    t.pc == 0x202) = true := by decide

/-- T-C19. -/
theorem test_sneReg_differ : next (step (regs (holding 0x9120) [(1, 3), (2, 4)])) (fun t =>
    t.pc == 0x204) = true := by decide

/-- T-C20. -/
theorem test_sneReg_equal : next (step (regs (holding 0x912F) [(1, 3), (2, 3)])) (fun t =>
    t.pc == 0x202) = true := by decide

/-- T-C4, the second tick: no fetch at 0xFFF, and the timer stays. -/
theorem test_fetch_past_the_end : next (step { drained with pc := 0xFFF, dt := 2 }) (fun t =>
    t.fault == some ⟨.fetchOutOfRange, none, 0xFFF, some 0xFFF⟩ && t.dt == 2) = true := by decide

/-! ### Arithmetic -/

/-- T-L1. -/
theorem test_ldImm : next (step (holding 0x6A3C)) (fun t => t.reg 10 == 0x3C && t.pc == 0x202) = true := by
  decide

/-- T-L3. -/
theorem test_addImm : next (step (regs (holding 0x70FF) [(15, 5)])) (fun t =>
    t.reg 0 == 0xFF && t.reg 15 == 5) = true := by decide

/-- T-L4. -/
theorem test_addImm_on_VF : next (step (regs (holding 0x7F01) [(15, 0xFF)])) (fun t =>
    t.reg 15 == 0) = true := by decide

/-- T-L5. -/
theorem test_ldReg : next (step (regs (holding 0x8120) [(2, 0x7E)])) (fun t => t.reg 1 == 0x7E) = true := by
  decide

/-- T-L6. -/
theorem test_orReg : next (step (regs (holding 0x8121) [(1, 0xF0), (2, 0x0F), (15, 1)])) (fun t =>
    t.reg 1 == 0xFF && t.reg 15 == 1) = true := by decide

/-- T-L7. -/
theorem test_andReg : next (step (regs (holding 0x8122) [(1, 0xF3), (2, 0x3F)])) (fun t =>
    t.reg 1 == 0x33) = true := by decide

/-- T-L8. -/
theorem test_xorReg : next (step (regs (holding 0x8123) [(1, 0xFF), (2, 0x0F)])) (fun t =>
    t.reg 1 == 0xF0) = true := by decide

/-- T-A1. -/
theorem test_addReg_carry : next (step (regs (holding 0x8124) [(1, 0xFF), (2, 0x01)])) (fun t =>
    t.reg 1 == 0 && t.reg 15 == 1) = true := by decide

/-- T-F2: the flag stays. -/
theorem test_addReg_on_VF : next (step (regs (holding 0x8F14) [(15, 0x10), (1, 0x02)])) (fun t =>
    t.reg 15 == 0) = true := by decide

/-- T-L12. -/
theorem test_subReg_equal : next (step (regs (holding 0x8125) [(1, 7), (2, 7), (15, 1)])) (fun t =>
    t.reg 1 == 0 && t.reg 15 == 0) = true := by decide

/-- T-F4: the difference stays. -/
theorem test_subReg_on_VF : next (step (regs (holding 0x8F15) [(15, 3), (1, 9)])) (fun t =>
    t.reg 15 == 0xFA) = true := by decide

/-- T-L14. -/
theorem test_subnReg : next (step (regs (holding 0x8127) [(1, 3), (2, 5)])) (fun t =>
    t.reg 1 == 2 && t.reg 15 == 1) = true := by decide

/-- T-F5. -/
theorem test_subnReg_on_VF : next (step (regs (holding 0x8F17) [(15, 3), (1, 9)])) (fun t =>
    t.reg 15 == 6) = true := by decide

/-- T-A3. -/
theorem test_shr : next (step (regs (holding 0x8126) [(1, 5), (2, 0xFF)])) (fun t =>
    t.reg 1 == 2 && t.reg 15 == 1) = true := by decide

/-- T-A3. -/
theorem test_shl : next (step (regs (holding 0x812E) [(1, 0x81), (2, 0xFF)])) (fun t =>
    t.reg 1 == 2 && t.reg 15 == 1) = true := by decide

/-- T-L17, for every state whose next random byte is 0xA7. -/
theorem test_rnd (s : State) (h : s.randomByte = 0xA7) :
    next (exec (.rnd 3 0x0F) s) (fun t => t.reg 3 == 0x07) = true := by
  simp [exec, execRnd, next, h]

/-- T-L19, for every value of the free byte. -/
theorem test_rnd_masked_out : next (exec (.rnd 5 0x00) (regs drained [(5, 0x77)])) (fun t =>
    t.reg 5 == 0 && t.rng.draws == 1) = true := by
  simp [exec, execRnd, next]
  rfl

/-! ### Index and memory -/

/-- T-I1. -/
theorem test_ldI : next (step (holding 0xA300)) (fun t => t.index == 0x300) = true := by decide

/-- T-I4. -/
theorem test_addI_wraps : next (step (regs { holding 0xF01E with index := 0xFFF } [(0, 0xFF)])) (fun t =>
    t.index == 0x0FE && t.reg 15 == 0) = true := by decide

/-- T-I8. -/
theorem test_ldF : next (step (regs (holding 0xF029) [(0, 0xFF)])) (fun t => t.index == 0x4FB) = true := by
  decide

/-- T-B1. -/
theorem test_ldB : next (step (regs { holding 0xF033 with index := 0x300 } [(0, 0xCD)])) (fun t =>
    read t 0x2FF 5 == [0, 2, 0, 5, 0] && t.index == 0x300) = true := by decide

/-- T-I12. -/
theorem test_ldB_outside : next (step (regs { holding 0xF033 with index := 0xFFE } [(0, 0xFF)])) (fun t =>
    t.fault == some ⟨.memOutOfRange, some 0xF033, 0x200, some 0x1000⟩ && read t 0xFFE 2 == [0, 0]) = true := by
  decide

/-- T-I13. -/
theorem test_dump :
    next (step (regs { holding 0xF255 with index := 0x400 } [(0, 0x11), (1, 0x22), (2, 0x33)])) (fun t =>
      read t 0x3FF 5 == [0, 0x11, 0x22, 0x33, 0] && t.index == 0x400) = true := by decide

/-- T-I16. -/
theorem test_dump_outside : next (step (regs { holding 0xFF55 with index := 0xFF1 } [(0, 1)])) (fun t =>
    t.fault == some ⟨.memOutOfRange, some 0xFF55, 0x200, some 0x1000⟩ && read t 0xFF1 1 == [0]) = true := by
  decide

/-- T-I18: the glyph of 0. -/
theorem test_load_glyph : next (step (holding 0xF465)) (fun t =>
    first t 6 == [0xF0, 0x90, 0x90, 0x90, 0xF0, 0]) = true := by decide

/-- T-I19. -/
theorem test_load_outside : next (step (regs { holding 0xF165 with index := 0xFFF } [(0, 7)])) (fun t =>
    t.fault == some ⟨.memOutOfRange, some 0xF165, 0x200, some 0x1000⟩ && t.reg 0 == 7) = true := by
  decide

/-! ### Display -/

/-- T-D1. -/
theorem test_cls : next (step (lit (holding 0x00E0) [(5, 7)])) (fun t =>
    t.display.px == marked [] && t.display.dirty == Grid.filled true) = true := by decide

/-- The start of T-S1. -/
def golden : State :=
  lit (bytes (regs { holding 0xD234 with index := 0x300 } [(2, 0x3E), (3, 0x1F)]) 0x300
    [0x00, 0x70, 0x70, 0x70]) [(63, 1), (63, 2)]

/-- T-S1: the seven lit cells, the nine dirty ones, the collision. -/
theorem test_drw_golden : next (step golden) (fun t =>
    t.display.px == marked [(0, 0), (0, 1), (0, 2), (1, 0), (1, 1), (1, 2), (63, 0)] &&
    t.display.dirty == marked
      [(0, 0), (0, 1), (0, 2), (1, 0), (1, 1), (1, 2), (63, 0), (63, 1), (63, 2)] &&
    t.reg 15 == 1 && t.pc == 0x202) = true := by decide +kernel

/-- T-D14. -/
theorem test_drw_outside : next (step (regs { holding 0xD002 with index := 0xFFF } [(15, 1)])) (fun t =>
    t.fault == some ⟨.memOutOfRange, some 0xD002, 0x200, some 0x1000⟩ && t.reg 15 == 1 &&
    t.display.px == marked []) = true := by decide

/-! ### Keys and timers -/

/-- T-K2. -/
theorem test_skp : next (tick (regs (holding 0xE29E) [(2, 5)]) (some 5)) (fun t =>
    t.pc == 0x204) = true := by decide

/-- T-K6. -/
theorem test_skp_whole_byte : next (tick (regs (holding 0xE09E) [(0, 0x10)]) (some 0)) (fun t =>
    t.pc == 0x202) = true := by decide

/-- T-K7. -/
theorem test_sknp_none : next (tick (regs (holding 0xE2A1) [(2, 5)]) none) (fun t =>
    t.pc == 0x204) = true := by decide

/-- T-K10. -/
theorem test_sknp_pressed : next (tick (regs (holding 0xE0A1) [(0, 0x0F)]) (some 15)) (fun t =>
    t.pc == 0x202) = true := by decide

/-- T-K12. -/
theorem test_ldKey_waits :
    next (tick (regs { holding 0xF00A with dt := 1, st := 1 } [(0, 0x55)]) none) (fun t =>
      t.pc == 0x200 && t.reg 0 == 0x55 && t.dt == 0 && t.st == 0 && t.toneStop) = true := by decide

/-- T-K11. -/
theorem test_ldKey_stores : next (tick (regs (holding 0xF00A) [(0, 0x55)]) (some 0)) (fun t =>
    t.reg 0 == 0 && t.pc == 0x202) = true := by decide

/-- T-T1. -/
theorem test_ldFromDt : next (step { holding 0xF407 with dt := 2 }) (fun t =>
    t.reg 4 == 2 && t.dt == 1) = true := by decide

/-- T-T4. -/
theorem test_ldDt : next (step (regs (holding 0xF315) [(3, 3)])) (fun t => t.dt == 2) = true := by
  decide

/-- T-T8. -/
theorem test_ldSt_one : next (step (regs (holding 0xF018) [(0, 1)])) (fun t =>
    t.st == 0 && t.toneStop) = true := by decide

/-- T-T9. -/
theorem test_ldSt_zero : next (step { holding 0xF018 with st := 9 }) (fun t =>
    t.st == 0 && !t.toneStop) = true := by decide

/-- T-T11. -/
theorem test_timers_in_every_cycle : next (step { holding 0x6000 with dt := 0xFF, st := 0xFF }) (fun t =>
    t.dt == 0xFE && t.st == 0xFE) = true := by decide

/-! ### Reset, load, faults -/

/-- T-X12: a fault keeps the timers, and the core ignores the next tick. -/
theorem test_fault_keeps_timers : next (step { drained with dt := 5, st := 5 }) (fun t =>
    t.dt == 5 && t.st == 5 && next (step t) (fun u => u == t)) = true := by decide

/-- T-Z1: the first and the last bytes of the font, the bytes after it. -/
theorem test_reset_font :
    read State.reset 0 7 = [0xF0, 0x90, 0x90, 0x90, 0xF0, 0x20, 0x60] ∧
      read State.reset 75 7 = [0xF0, 0x80, 0xF0, 0x80, 0x80, 0, 0] := by decide

/-- T-Z2. -/
theorem test_load : next (loadRom State.reset [0x12, 0x00]) (fun t =>
    read t 0x1FF 4 == [0, 0x12, 0, 0] && next (step t) (fun u => u.pc == 0x200)) = true := by decide

/-- T-Z4. -/
theorem test_load_too_large : loadRom State.reset (List.replicate 3585 0) = .refused .romTooLarge := by
  unfold loadRom
  rw [test_image_of_3585_bytes_is_refused]
  rfl

/-- T-D15. -/
theorem test_drain_twice :
    (drain State.reset).1 = Grid.filled true ∧ (drain drained).1 = marked [] := by decide

/-- T-C2 and 00_scope R18: a self-jump with timers runs, and is idle once both are 0. -/
theorem test_self_jump_becomes_idle :
    ({ holding 0x1200 with dt := 2, st := 1 } : State).runStatus = .running ∧
      next (runTicks [none, some 3] { holding 0x1200 with dt := 2, st := 1 }) (fun t =>
        t.runStatus == .idle && t.pc == 0x200 && t.ticks == 2) = true := by decide

/-- P6a: a run of two ticks with nothing loaded ends with the fault of the first. -/
theorem test_run_ends_with_fault : next (runTicks [none, none] drained) (fun t =>
    t.runStatus == .faulted && t.ticks == 0 && t.keys == []) = true := by decide

/-- P6b: the first tick completes, the second faults, the third is ignored; one cycle is counted. -/
theorem test_run_counts_completed_cycles : next (runTicks [none, none, none] (holding 0x6001)) (fun t =>
    t.fault == some ⟨.decodeFault, some 0x0000, 0x202, none⟩ && t.ticks == 1 && t.reg 0 == 1) = true := by
  decide

/-- 20_memory R57 and the canonical form: the reset contents written back list nothing. -/
theorem test_memory_canonical :
    ((⟨[]⟩ : Memory).setByte 0x300 7).cells = [(0x300, 7)] ∧
      (((⟨[]⟩ : Memory).setByte 0x300 7).setByte 0x300 0) = ⟨[]⟩ ∧
      ((⟨[]⟩ : Memory).setByte 1 0x90) = ⟨[]⟩ := by decide

/-! ### Witnesses: for each statement with hypotheses, a state and operands that meet all of them -/

theorem fetches_word (s : State) (i : Instr) (hf : s.fault = none) (hp : s.pc.toNat + 1 < 4096)
    (hd : decode s.wordAtPc = some i) : Fetches s i := ⟨hf, hp, hd⟩

theorem witness_DecodedWordIsItsEncoding : decode 0x5127#16 = some (.seReg 1 2 7) := by decide

theorem witness_DecodingFollowsTheTable :
    decode 0x812E#16 = some (.shl 1 2) ∧ decode 0xFFFF#16 = none := by decide

theorem witness_OpcodeRowsAreDisjoint : (rowOf .cls).accepts 0x00E0 = true := by decide

theorem witness_FetchReadsTwoBytesBigEndian : 4094 + 1 < 4096 ∧ 4095 ≤ 4095 := by decide

theorem fetches_jp : Fetches (holding 0x1204) (.jp 0x204) := fetches_word _ _ rfl (by decide) (by decide)

theorem witness_StepRunsTheDecodedInstruction :
    (holding 0x1204).fault = none ∧ (holding 0x1204).pc.toNat + 1 < 4096 ∧
      decodeBytes ((holding 0x1204).mem.byteAt 0x200) ((holding 0x1204).mem.byteAt (0x200 + 1)) =
        some (.jp 0x204) := by decide

/-- The last address a fetch can be performed at. -/
def lastWord : State := ({ drained with pc := 4094 } : State).withFetchWord 16 0x6001

theorem witness_StepRunsTheDecodedInstruction_last : Fetches lastWord (.ldImm 0 1) :=
  fetches_word _ _ rfl (by decide) (by decide)

theorem witness_CycleEndsWithTimersAndTone :
    ∃ t, Fetches (holding 0x1204) (.jp 0x204) ∧ exec (.jp 0x204) (holding 0x1204) = .next t ∧
      t.fault = none := ⟨_, fetches_jp, rfl, rfl⟩

/-- A sound timer that ends in this cycle, by a write and by itself. -/
def soundOne : State := regs (holding 0xF518) [(5, 1)]

theorem fetches_soundOne : Fetches soundOne (.ldSt 5) := fetches_word _ _ rfl (by decide) (by decide)

theorem witness_TimersCountEveryCompletedCycle :
    ∃ u, Fetches soundOne (.ldSt 5) ∧ step soundOne = .next u ∧ u.fault = none :=
  ⟨_, fetches_soundOne, step_of_exec _ _ _ fetches_soundOne rfl rfl, rfl⟩

theorem witness_TimersCountEveryCompletedCycle_faulting :
    ∃ u, step drained = .next u ∧ u.fault ≠ none :=
  ⟨_, step_of_illegal _ rfl (by decide) (by decide), by simp⟩

theorem witness_ToneStopOnlyOnOneToZero :
    ∃ u, Fetches soundOne (.ldSt 5) ∧ step soundOne = .next u ∧ u.fault = none ∧ u.toneStop = true :=
  ⟨_, fetches_soundOne, step_of_exec _ _ _ fetches_soundOne rfl rfl, rfl, by decide⟩

theorem witness_FetchFaultsOnlyPastTheEnd :
    ∃ u r, ({ drained with pc := 4094 } : State).fault = none ∧
      step { drained with pc := 4094 } = .next u ∧ u.fault = some r :=
  ⟨_, _, rfl, step_of_illegal _ rfl (by decide) (by decide), rfl⟩

theorem witness_FetchFaultsOnlyPastTheEnd_past :
    ({ drained with pc := 4095 } : State).fault = none ∧
      4095 ≤ ({ drained with pc := 4095 } : State).pc.toNat := by decide

theorem witness_ToneStopOnlyOnOneToZero_faulting :
    ∃ u, ({ drained with st := 1 } : State).fault = none ∧ step { drained with st := 1 } = .next u ∧
      u.fault ≠ none :=
  ⟨_, rfl, step_of_illegal _ rfl (by decide) (by decide), by simp⟩

theorem witness_IllegalWordRaisesDecodeFault_legal :
    ∃ u r, (holding 0x00EE).fault = none ∧ (holding 0x00EE).pc.toNat < 4095 ∧
      decode (holding 0x00EE).wordAtPc ≠ none ∧ step (holding 0x00EE) = .next u ∧ u.fault = some r :=
  ⟨_, _, rfl, by decide, by decide, step_of_fetches _ .ret (fetches_word _ _ rfl (by decide) (by decide)), rfl⟩

theorem witness_IllegalWordRaisesDecodeFault :
    ({ drained with pc := 4094 } : State).fault = none ∧
      ({ drained with pc := 4094 } : State).pc.toNat < 4095 ∧
      decode ({ drained with pc := 4094 } : State).wordAtPc = none := by decide

/-- A faulted core. -/
def faulted : State := drained.withFault .decodeFault (some 0) none

theorem witness_FaultedCoreIgnoresTicks : faulted.fault ≠ none := by decide

theorem witness_FaultsKeepNoWrite :
    ∃ u, drained.fault = none ∧ step drained = .next u ∧ u.fault ≠ none :=
  ⟨_, rfl, step_of_illegal _ rfl (by decide) (by decide), by simp⟩

theorem witness_FaultsExactlyWhenDue_decode : ∃ u, drained.fault = none ∧ step drained = .next u ∧
    FaultDue drained ⟨.decodeFault, some drained.wordAtPc, drained.pc, none⟩ :=
  ⟨_, rfl, step_of_illegal _ rfl (by decide) (by decide), .decodeFault (by decide) (by decide)⟩

theorem witness_FaultsExactlyWhenDue_fetch :
    FaultDue { drained with pc := 4095 } ⟨.fetchOutOfRange, none, 4095, some 4095⟩ :=
  .fetchOutOfRange (by decide)

theorem witness_FaultsExactlyWhenDue_overflow :
    FaultDue { holding 0x2300 with sp := 16 } ⟨.stackOverflow, some 0x2300, 0x200, none⟩ :=
  .stackOverflow 0x300 (by decide) (by decide) rfl

theorem witness_FaultsExactlyWhenDue_underflow :
    FaultDue (holding 0x00EE) ⟨.stackUnderflow, some 0x00EE, 0x200, none⟩ :=
  .stackUnderflow (by decide) (by decide) rfl

theorem witness_FaultsExactlyWhenDue_memory :
    FaultDue { holding 0xF033 with index := 4094 } ⟨.memOutOfRange, some 0xF033, 0x200, some 4096⟩ :=
  .memOutOfRange (.ldB 0) (by decide) (by decide) ⟨by decide, by decide⟩

/-- A full stack of return addresses, memory and the index at their last legal values. -/
def crowded : State :=
  { holding 0xF065 with sp := 16, stack := Vector.replicate 16 4094, index := 4095 }

theorem crowded_inv : crowded.Inv := by
  refine ⟨by decide, by decide, by decide, fun k _ => ?_, fun h => absurd h (by decide)⟩
  have h : crowded.stack = Vector.replicate 16 4094 := rfl
  simp [h]

theorem fetches_crowded : Fetches crowded (.load 0) := fetches_word _ _ rfl (by decide) (by decide)

theorem witness_StepKeepsInvariant : ∃ u, crowded.Inv ∧ step crowded = .next u ∧ u.fault = none :=
  ⟨_, crowded_inv, step_of_exec _ _ _ fetches_crowded rfl rfl, rfl⟩

theorem witness_HostOperationsKeepInvariant :
    ∃ u, crowded.Inv ∧ loadRom crowded [0x12, 0x00] = .next u := ⟨_, crowded_inv, rfl⟩

theorem witness_HostOperationsKeepInvariant_run :
    ∃ u v, crowded.Inv ∧ tick crowded none = .next u ∧ runTicks [none] crowded = .next v :=
  ⟨_, _, crowded_inv, tick_of_exec _ _ _ _ fetches_crowded rfl rfl,
    runTicks_cons (tick_of_exec _ _ _ _ fetches_crowded rfl rfl) []⟩

/-- A store at the last place it may be at. -/
theorem witness_InstructionsWriteOnlyTheirState_store :
    ∃ t, exec (.ldB 0) { drained with index := 4093 } = .next t ∧ t.fault = none := ⟨_, rfl, by decide⟩

theorem witness_InstructionsWriteOnlyTheirState :
    ∃ t, exec (.load 0) crowded = .next t ∧ crowded.fault = none ∧ t.fault = none := ⟨_, rfl, rfl, rfl⟩

theorem witness_ReturnPopsOrUnderflows :
    (∃ k : Fin 16, k.val + 1 = crowded.sp.val) ∧
      (∃ k : Fin 16, k.val + 1 = (called 0x00EE).sp.val) ∧ (holding 0x00EE).sp.val = 0 :=
  ⟨⟨15, rfl⟩, ⟨0, rfl⟩, rfl⟩

theorem witness_CallPushesItsOwnAddressOrOverflows :
    ({ drained with sp := 15 } : State).sp.val < 16 ∧ crowded.sp.val = 16 := by decide

theorem witness_ReturnResumesAfterTheCall :
    ∃ t, ∃ u : State, ({ drained with sp := 15 } : State).sp.val < 16 ∧
      exec (.call 0x300) { drained with sp := 15 } = .next t ∧ u.sp = t.sp ∧ u.stack = t.stack :=
  ⟨_, _, by decide, rfl, rfl, rfl⟩

theorem witness_AddSetsCarry : (1 : Reg) ≠ 15 := by decide

theorem witness_RandomDrawsOneMaskedByte :
    (∃ b < 8, (0x0F : Byte).getLsbD b = false) ∧
      ∃ t, exec .cls drained = .next t ∧ ∀ x kk, Instr.cls ≠ .rnd x kk :=
  ⟨⟨7, by decide, by decide⟩, _, rfl, fun _ _ h => by cases h⟩

theorem witness_SameSeedSameDraws :
    ∃ t t', exec (.rnd 0 0xFF) (reseed drained 7) = .next t ∧
      exec (.rnd 0 0xFF) (reseed (regs drained [(0, 9)]) 7) = .next t' := ⟨_, _, rfl, rfl⟩

theorem witness_BcdStoresThreeDigitsOrFaults :
    ({ drained with index := 4093 } : State).index.toNat + 2 < 4096 ∧
      4096 ≤ ({ drained with index := 4094 } : State).index.toNat + 2 := by decide

theorem witness_DumpStoresRegistersOrFaults :
    ({ drained with index := 4080 } : State).index.toNat + (15 : Reg).val < 4096 ∧
      4096 ≤ ({ drained with index := 4081 } : State).index.toNat + (15 : Reg).val := by decide

theorem witness_LoadReadsRegistersOrFaults :
    crowded.index.toNat + (0 : Reg).val < 4096 ∧ 4096 ≤ crowded.index.toNat + (1 : Reg).val := by decide

theorem witness_DumpThenLoadRestoresRegisters :
    ∃ t, ∃ u : State, ({ drained with index := 4080 } : State).index.toNat + (15 : Reg).val < 4096 ∧
      exec (.dump 15) { drained with index := 4080 } = .next t ∧ u.mem = t.mem ∧ u.index = t.index :=
  ⟨_, _, by decide, rfl, rfl, rfl⟩

theorem witness_ByteAccessReadsLastWrite : 4095 < 4096 ∧ 4096 ≤ 4096 ∧ 0 ≠ 4095 := by decide

/-- `F155` at 0x200, storing `120A` over the next word. -/
def selfModifying : State := regs { holding 0xF155 with index := 0x202 } [(0, 0x12), (1, 0x0A)]

theorem witness_StoreIsSeenByTheNextFetch :
    Fetches selfModifying (.dump 1) ∧ 1 ≤ (1 : Reg).val ∧ selfModifying.index = selfModifying.pc + 2 ∧
      selfModifying.pc.toNat + 2 + (1 : Reg).val < 4096 ∧
      decodeBytes (selfModifying.reg 0) (selfModifying.reg 1) = some (.jp 0x20A) :=
  ⟨fetches_word _ _ rfl (by decide) (by decide), by decide, by decide, by decide, by decide⟩

theorem witness_DrawInvertsCellsUnderSourceBits :
    ¬ crowded.accessOut (1 : Nibble).toNat ∧ ¬ crowded.accessOut (0 : Nibble).toNat ∧
      crowded.accessOut (2 : Nibble).toNat :=
  ⟨fun h => absurd h.2 (by decide), fun h => h.1 rfl, by decide, by decide⟩

theorem witness_DrawingTwiceRestoresPixels :
    ∃ t, ∃ u : State, ¬ crowded.accessOut (1 : Nibble).toNat ∧ exec (.drw 0 1 1) crowded = .next t ∧
      u.display = t.display ∧ u.mem = crowded.mem ∧ u.index = crowded.index ∧
      u.reg 0 = crowded.reg 0 ∧ u.reg 1 = crowded.reg 1 :=
  ⟨_, _, fun h => absurd h.2 (by decide), rfl, rfl, rfl, rfl, rfl, rfl⟩

theorem witness_KeySkipsCompareTheWholeByte :
    (presentKey drained (some 0)).key = some 0 ∧ (presentKey drained none).key = none := by decide

theorem witness_WaitForKeyHoldsOrStores :
    (presentKey drained (some 15)).key = some 15 ∧
      (presentKey (holding 0xF30A) none).key = none ∧
      Fetches (presentKey (holding 0xF30A) none) (.ldKey 3) :=
  ⟨rfl, rfl, fetches_word _ _ rfl (by decide) (by decide)⟩

theorem witness_TickPresentsItsKeySample :
    Fetches (holding 0xE29E) (.skp 2) ∧ Fetches (holding 0xE2A1) (.sknp 2) ∧
      Fetches (holding 0xF30A) (.ldKey 3) :=
  ⟨fetches_word _ _ rfl (by decide) (by decide), fetches_word _ _ rfl (by decide) (by decide),
    fetches_word _ _ rfl (by decide) (by decide)⟩

theorem witness_TickPresentsItsKeySample_completes :
    ∃ u, step (presentKey (holding 0xE29E) (some 5)) = .next u ∧ u.fault = none :=
  ⟨_, step_of_exec _ _ (.skp 2) (fetches_word _ _ rfl (by decide) (by decide)) rfl rfl, rfl⟩

theorem witness_ReadTimerCopiesBeforeTheDecrement : Fetches (holding 0xF407) (.ldFromDt 4) :=
  fetches_word _ _ rfl (by decide) (by decide)

theorem witness_SetTimerCopiesAndCountsAtOnce :
    Fetches (holding 0xF315) (.ldDt 3) ∧ Fetches soundOne (.ldSt 5) :=
  ⟨fetches_word _ _ rfl (by decide) (by decide), fetches_soundOne⟩

theorem witness_ResetPutsEveryPieceAtItsValue :
    (∃ t, t = State.reset) ∧ ∃ t, ∃ s : State, s.fault ≠ none ∧ t = hostReset s :=
  ⟨⟨_, rfl⟩, _, faulted, by decide, rfl⟩

theorem witness_LoadPlacesTheImageOrRefuses :
    State.reset.ticks = 0 ∧ State.reset.fault = none ∧
      (List.replicate 3584 (0 : Byte)).length ≤ 3584 ∧ 3584 < (List.replicate 3585 (0 : Byte)).length := by
  simp only [List.length_replicate]
  decide

theorem witness_EveryRunEndsAfterItsTicks :
    ∃ t, runTicks [none] (holding 0x1204) = .next t ∧ t.fault = none :=
  ⟨_, runTicks_cons (tick_of_exec _ _ _ _ fetches_jp rfl rfl) [], rfl⟩

/-- A run whose first tick faults, and a run of a faulted core. -/
theorem witness_EveryRunEndsAfterItsTicks_faulting :
    faulted.fault ≠ none ∧ ∃ t, drained.fault = none ∧ runTicks [none] drained = .next t ∧
      t.fault ≠ none :=
  ⟨by decide, _, rfl, runTicks_cons (tick_of_step (step_of_illegal _ rfl (by decide) (by decide))) [],
    by simp⟩

theorem witness_EndedRunStaysEnded :
    faulted.runStatus = .faulted ∧ (holding 0x1200).runStatus = .idle := by decide

theorem witness_SelfJumpRunsTheTimersDown :
    Fetches { holding 0x1200 with dt := 2, st := 1 } (.jp 0x200) ∧
      ({ holding 0x1200 with dt := 2, st := 1 } : State).pc.toNat = (0x200 : Addr12).toNat ∧
      ({ holding 0x1200 with dt := 2, st := 1 } : State).dt.toNat ≤ [none, some (3 : Key)].length ∧
      ({ holding 0x1200 with dt := 2, st := 1 } : State).st.toNat ≤ [none, some (3 : Key)].length :=
  ⟨fetches_word _ _ rfl (by decide) (by decide), by decide, by decide, by decide⟩

end Sys2Proof.Tests
end

section
/-! PROOFS. The jump and the skips on an immediate (spec 40_cycle_and_control R106, R109, R110): the frame of
the shared operations `goTo` and `skipIf`, then one equation per instruction. -/

namespace Sys2Proof.Machine

/-! ### Frames of the shared operations -/

/-- Going to an address changes `pc` only, so whatever else may change stays as well. -/
theorem State.goTo_changesOnly (parts : List Part) (regs : Reg → Prop) (s : State) (w : Word) :
    ChangesOnly parts regs s (s.goTo w) where
  regs y _ := s.goTo_reg w y
  index _ := s.goTo_index w
  stack _ := ⟨s.goTo_sp w, s.goTo_stack w⟩
  dt _ := s.goTo_dt w
  st _ := s.goTo_st w
  memory _ _ := congrArg (Memory.byteAt · _) (s.goTo_mem w)
  display _ := s.goTo_display w
  rng _ := s.goTo_rng w
  fault _ := ⟨s.goTo_fault w, s.goTo_toneStop w⟩
  keys := s.goTo_keys w
  ticks := s.goTo_ticks w
  resets := s.goTo_resets w

/-- A conditional skip is a jump to one of two addresses, so it has the frame of `goTo`. -/
theorem State.skipIf_changesOnly (parts : List Part) (regs : Reg → Prop) (s : State) (c : Bool) :
    ChangesOnly parts regs s (s.skipIf c) :=
  s.goTo_changesOnly parts regs _

/-- The address after a conditional skip, with the test `c` of the model read as the proposition `p` it
decides. -/
theorem State.skipIf_pc_of_iff (s : State) {c : Bool} {p : Prop} [Decidable p] (h : c = true ↔ p) :
    (s.skipIf c).pc = s.pc + (if p then 4 else 2) := by
  by_cases hp : p
  · rw [s.skipIf_pc, if_pos (h.2 hp), if_pos hp]
  · rw [s.skipIf_pc, if_neg (mt h.1 hp), if_neg hp]

/-! ### One equation per instruction -/

theorem exec_jp (nnn : Addr12) (s : State) : exec (.jp nnn) s = .next (s.goTo (addrOperand nnn)) := rfl

theorem exec_seImm (x : Reg) (kk : Byte) (s : State) :
    exec (.seImm x kk) s = .next (s.skipIf (s.reg x == kk)) := rfl

theorem exec_sneImm (x : Reg) (kk : Byte) (s : State) :
    exec (.sneImm x kk) s = .next (s.skipIf (s.reg x != kk)) := rfl

/-! ### The obligations -/

/-- Settles O25: the target is the operand zero-extended, and `goTo` has the empty frame. -/
theorem jumpGoesToItsAddress : Obligations.JumpGoesToItsAddress := fun s nnn =>
  ⟨_, exec_jp nnn s, addrOperand_toNat nnn, s.goTo_changesOnly _ _ _⟩

/-- Settles O27: both skips are `skipIf`, on the test for equality and on its negation. -/
theorem immediateSkipsCompareTheRegister : Obligations.ImmediateSkipsCompareTheRegister :=
  fun s x kk =>
    ⟨⟨_, exec_seImm x kk s, s.skipIf_pc_of_iff beq_iff_eq, s.skipIf_changesOnly _ _ _⟩,
      ⟨_, exec_sneImm x kk s, s.skipIf_pc_of_iff bne_iff_ne, s.skipIf_changesOnly _ _ _⟩⟩

end Sys2Proof.Machine
end

section
/-! PROOFS. The loads, the immediate add, the copy and the logic of two registers (spec 41_alu R132 to R137):
all six write one register and advance, so the frame of that write is proved once. -/

namespace Sys2Proof.Machine

/-! ### The frame of a register write -/

/-- Frames compose: what neither of two changes touches stays through both. -/
theorem ChangesOnly.trans {parts : List Part} {regs : Reg → Prop} {s t u : State}
    (hst : ChangesOnly parts regs s t) (htu : ChangesOnly parts regs t u) :
    ChangesOnly parts regs s u where
  regs y hy := (htu.regs y hy).trans (hst.regs y hy)
  index h := (htu.index h).trans (hst.index h)
  stack h := ⟨(htu.stack h).1.trans (hst.stack h).1, (htu.stack h).2.trans (hst.stack h).2⟩
  dt h := (htu.dt h).trans (hst.dt h)
  st h := (htu.st h).trans (hst.st h)
  memory h a := (htu.memory h a).trans (hst.memory h a)
  display h := (htu.display h).trans (hst.display h)
  rng h := (htu.rng h).trans (hst.rng h)
  fault h := ⟨(htu.fault h).1.trans (hst.fault h).1, (htu.fault h).2.trans (hst.fault h).2⟩
  keys := htu.keys.trans hst.keys
  ticks := htu.ticks.trans hst.ticks
  resets := htu.resets.trans hst.resets

/-- A write to one of the registers that may change. -/
theorem State.setReg_changesOnly (parts : List Part) (regs : Reg → Prop) (s : State) {x : Reg}
    (hx : regs x) (b : Byte) : ChangesOnly parts regs s (s.setReg x b) where
  regs y hy := by
    have hne : y ≠ x := fun h => hy (h ▸ hx)
    rw [State.reg_setReg, if_neg hne]
  index _ := s.setReg_index x b
  stack _ := ⟨s.setReg_sp x b, s.setReg_stack x b⟩
  dt _ := s.setReg_dt x b
  st _ := s.setReg_st x b
  memory _ _ := congrArg (Memory.byteAt · _) (s.setReg_mem x b)
  display _ := s.setReg_display x b
  rng _ := s.setReg_rng x b
  fault _ := ⟨s.setReg_fault x b, s.setReg_toneStop x b⟩
  keys := s.setReg_keys x b
  ticks := s.setReg_ticks x b
  resets := s.setReg_resets x b

/-- The whole frame of an instruction that writes `V[x]` and advances. -/
theorem State.setReg_advance_changesOnly (s : State) (x : Reg) (b : Byte) :
    ChangesOnly [] (· = x) s (s.setReg x b).advance :=
  (s.setReg_changesOnly [] (· = x) rfl b).trans ((s.setReg x b).goTo_changesOnly _ _ _)

/-- The result of an instruction that writes `V[x]` and advances. -/
theorem State.setReg_advance_reg (s : State) (x : Reg) (b : Byte) :
    (s.setReg x b).advance.reg x = b := by
  rw [State.advance_reg, State.reg_setReg_self]

/-! ### One equation per instruction -/

theorem exec_ldImm (x : Reg) (kk : Byte) (s : State) :
    exec (.ldImm x kk) s = .next (s.setReg x kk).advance := rfl

theorem exec_addImm (x : Reg) (kk : Byte) (s : State) :
    exec (.addImm x kk) s = .next (s.setReg x (s.reg x + kk)).advance := rfl

theorem exec_ldReg (x y : Reg) (s : State) :
    exec (.ldReg x y) s = .next (s.setReg x (s.reg y)).advance := rfl

theorem exec_orReg (x y : Reg) (s : State) :
    exec (.orReg x y) s = .next (s.setReg x (s.reg x ||| s.reg y)).advance := rfl

theorem exec_andReg (x y : Reg) (s : State) :
    exec (.andReg x y) s = .next (s.setReg x (s.reg x &&& s.reg y)).advance := rfl

theorem exec_xorReg (x y : Reg) (s : State) :
    exec (.xorReg x y) s = .next (s.setReg x (s.reg x ^^^ s.reg y)).advance := rfl

/-! ### The obligations -/

/-- Settles O29: each writes one register and advances; the sum of two bytes is the exact sum modulo 256. -/
theorem immediateLoadAndAdd : Obligations.ImmediateLoadAndAdd := fun s x kk =>
  ⟨⟨_, exec_ldImm x kk s, s.setReg_advance_reg x _, State.advance_pc _,
      s.setReg_advance_changesOnly x _⟩,
    ⟨_, exec_addImm x kk s, by rw [State.setReg_advance_reg, BitVec.toNat_add], State.advance_pc _,
      s.setReg_advance_changesOnly x _⟩⟩

/-- Settles O30: each writes one register and advances; the operators on bytes act bit by bit. -/
theorem copyAndLogicWriteOnlyTheirRegister : Obligations.CopyAndLogicWriteOnlyTheirRegister :=
  fun s x y =>
    ⟨⟨_, exec_ldReg x y s, s.setReg_advance_reg x _, State.advance_pc _,
        s.setReg_advance_changesOnly x _⟩,
      ⟨_, exec_orReg x y s, fun b _ => by rw [State.setReg_advance_reg, BitVec.getLsbD_or],
        State.advance_pc _, s.setReg_advance_changesOnly x _⟩,
      ⟨_, exec_andReg x y s, fun b _ => by rw [State.setReg_advance_reg, BitVec.getLsbD_and],
        State.advance_pc _, s.setReg_advance_changesOnly x _⟩,
      ⟨_, exec_xorReg x y s, fun b _ => by rw [State.setReg_advance_reg, BitVec.getLsbD_xor],
        State.advance_pc _, s.setReg_advance_changesOnly x _⟩⟩

end Sys2Proof.Machine
end

section
/-! PROOFS. The load of the index register (spec 42_index_and_memory R160): the frame of the shared operation
`setIndex`, alone and with the advance, then the instruction's equation. -/

namespace Sys2Proof.Machine

/-! ### The frame of an index write -/

/-- A write to `I`, where `I` may change. -/
theorem State.setIndex_changesOnly {parts : List Part} (regs : Reg → Prop) (s : State)
    (hparts : .index ∈ parts) (w : Word) : ChangesOnly parts regs s (s.setIndex w) where
  regs y _ := s.setIndex_reg w y
  index h := absurd hparts h
  stack _ := ⟨s.setIndex_sp w, s.setIndex_stack w⟩
  dt _ := s.setIndex_dt w
  st _ := s.setIndex_st w
  memory _ _ := congrArg (Memory.byteAt · _) (s.setIndex_mem w)
  display _ := s.setIndex_display w
  rng _ := s.setIndex_rng w
  fault _ := ⟨s.setIndex_fault w, s.setIndex_toneStop w⟩
  keys := s.setIndex_keys w
  ticks := s.setIndex_ticks w
  resets := s.setIndex_resets w

/-- The whole frame of an instruction that writes `I` and advances. -/
theorem State.setIndex_advance_changesOnly (s : State) (w : Word) :
    ChangesOnly [.index] (fun _ => False) s (s.setIndex w).advance :=
  (s.setIndex_changesOnly _ (List.mem_singleton_self _) w).trans
    ((s.setIndex w).goTo_changesOnly _ _ _)

/-! ### The instruction's equation -/

theorem exec_ldI (nnn : Addr12) (s : State) :
    exec (.ldI nnn) s = .next (s.setIndex (addrOperand nnn)).advance := rfl

/-! ### The obligation -/

/-- Settles O36: the value written to `I` is the operand zero-extended, and the advance keeps `I`. -/
theorem loadIndexTakesTheAddress : Obligations.LoadIndexTakesTheAddress := fun s nnn =>
  ⟨_, exec_ldI nnn s, addrOperand_toNat nnn, State.advance_pc _,
    s.setIndex_advance_changesOnly (addrOperand nnn)⟩

end Sys2Proof.Machine
end

section
/-! PROOFS. The clear of the screen (spec 43_display R181, R185): each cell of a written and of a cleared
surface, the frame of the shared operation `setDisplay`, then the instruction's equation. -/

namespace Sys2Proof.Machine

/-! ### The cells of a surface -/

@[simp] theorem Surface.clear_px_get (d : Surface) (c : Col) (r : Row) :
    d.clear.px.get c r = false := Grid.get_filled false c r

@[simp] theorem Surface.clear_dirty_get (d : Surface) (c : Col) (r : Row) :
    d.clear.dirty.get c r = true := Grid.get_filled true c r

@[simp] theorem State.setDisplay_px (s : State) (d : Surface) (c : Col) (r : Row) :
    (s.setDisplay d).px c r = d.px.get c r := rfl

@[simp] theorem State.setDisplay_dirty (s : State) (d : Surface) (c : Col) (r : Row) :
    (s.setDisplay d).dirty c r = d.dirty.get c r := rfl

@[simp] theorem State.advance_px (s : State) (c : Col) (r : Row) :
    s.advance.px c r = s.px c r := rfl

@[simp] theorem State.advance_dirty (s : State) (c : Col) (r : Row) :
    s.advance.dirty c r = s.dirty c r := rfl

/-! ### The frame of a display write -/

/-- A write to the display surface, where the display may change. -/
theorem State.setDisplay_changesOnly {parts : List Part} (regs : Reg → Prop) (s : State)
    (hparts : .display ∈ parts) (d : Surface) : ChangesOnly parts regs s (s.setDisplay d) where
  regs y _ := s.setDisplay_reg d y
  index _ := s.setDisplay_index d
  stack _ := ⟨s.setDisplay_sp d, s.setDisplay_stack d⟩
  dt _ := s.setDisplay_dt d
  st _ := s.setDisplay_st d
  memory _ _ := congrArg (Memory.byteAt · _) (s.setDisplay_mem d)
  display h := absurd hparts h
  rng _ := s.setDisplay_rng d
  fault _ := ⟨s.setDisplay_fault d, s.setDisplay_toneStop d⟩
  keys := s.setDisplay_keys d
  ticks := s.setDisplay_ticks d
  resets := s.setDisplay_resets d

/-- The whole frame of an instruction that writes the display surface and advances. -/
theorem State.setDisplay_advance_changesOnly (s : State) (d : Surface) :
    ChangesOnly [.display] (fun _ => False) s (s.setDisplay d).advance :=
  (s.setDisplay_changesOnly _ (List.mem_singleton_self _) d).trans
    ((s.setDisplay d).goTo_changesOnly _ _ _)

/-! ### The instruction's equation -/

theorem exec_cls (s : State) : exec .cls s = .next (s.setDisplay s.display.clear).advance := rfl

/-! ### The obligation -/

/-- Settles O44: the surface written is the cleared one, whatever it was, and the advance keeps it. -/
theorem clearBlanksAndMarksEveryCell : Obligations.ClearBlanksAndMarksEveryCell := fun s =>
  ⟨_, exec_cls s,
    fun c r => by rw [State.advance_px, State.setDisplay_px, Surface.clear_px_get],
    fun c r => by rw [State.advance_dirty, State.setDisplay_dirty, Surface.clear_dirty_get],
    State.advance_pc _, s.setDisplay_advance_changesOnly s.display.clear⟩

end Sys2Proof.Machine
end

section
/-! PROOFS. The read of the delay timer (spec 44_keys_and_timers R214): the instruction's equation, then its
whole cycle, where the copy is made before steps 6 and 7 count the timer down. -/

namespace Sys2Proof.Machine

/-! ### The instruction's equation and its cycle -/

theorem exec_ldFromDt (x : Reg) (s : State) :
    exec (.ldFromDt x) s = .next (s.setReg x s.dt).advance := rfl

/-- The copy cannot fault, so the cycle runs to its end. -/
theorem step_ldFromDt {s : State} {x : Reg} (h : Fetches s (.ldFromDt x)) :
    step s = .next (s.setReg x s.dt).advance.endCycle := by
  have hfault : (s.setReg x s.dt).advance.fault = none := by
    rw [State.advance_fault, State.setReg_fault, h.1]
  exact step_of_exec s _ _ h (exec_ldFromDt x s) hfault

/-! ### The obligation -/

/-- Settles O51: the register takes `DT` as the cycle found it; the end of the cycle keeps the register and
counts the untouched timer down. -/
theorem readTimerCopiesBeforeTheDecrement : Obligations.ReadTimerCopiesBeforeTheDecrement :=
  fun s x =>
    ⟨⟨_, exec_ldFromDt x s, s.setReg_advance_reg x _, State.advance_pc _,
        s.setReg_advance_changesOnly x _⟩,
      fun h => ⟨_, step_ldFromDt h,
        by rw [State.endCycle_reg, State.setReg_advance_reg],
        by rw [State.endCycle_dt, decremented_toNat, State.advance_dt, State.setReg_dt],
        by rw [State.endCycle_pc, State.advance_pc, State.setReg_pc]⟩⟩

end Sys2Proof.Machine
end

section
/-! PROOFS. Encoding and decoding against each other and against the opcode table (spec 30_encoding R71 to
R80): table by table, with a word taken apart into its fields. -/

namespace Sys2Proof

/-! ### Which table a word goes to -/

theorem decode_class8 {op : Word} (h : fieldClass op = 0x8#4) : decode op = decodeT8 op := by
  simp only [decode, h]; rfl

theorem decode_classE {op : Word} (h : fieldClass op = 0xE#4) : decode op = decodeTE op := by
  simp only [decode, h]; rfl

theorem decode_classF {op : Word} (h : fieldClass op = 0xF#4) : decode op = decodeTF op := by
  simp only [decode, h]; rfl

theorem decode_other {op : Word} (h0 : fieldClass op ≠ 0x0#4) (h8 : fieldClass op ≠ 0x8#4)
    (hE : fieldClass op ≠ 0xE#4) (hF : fieldClass op ≠ 0xF#4) : decode op = decodeTD op := by
  unfold decode
  split
  · exact absurd (eq_ofNat_of_toNat_eq ‹_›) h0
  · exact absurd (eq_ofNat_of_toNat_eq ‹_›) h8
  · exact absurd (eq_ofNat_of_toNat_eq ‹_›) hE
  · exact absurd (eq_ofNat_of_toNat_eq ‹_›) hF
  · rfl

/-! ### A word that decodes is the word of its instruction, table by table -/

theorem encode_of_decodeT0 {op : Word} {i : Instr} (h : decodeT0 op = some i) : encode i = op := by
  unfold decodeT0 at h
  split at h
  · next e => cases h; exact e.symm
  · split at h
    · next e => cases h; exact e.symm
    · cases h

theorem encode_of_decodeT8 {op : Word} {i : Instr} (hc : fieldClass op = 0x8#4)
    (h : decodeT8 op = some i) : encode i = op := by
  have hop := wordXYN_fields op
  rw [hc] at hop
  unfold decodeT8 at h
  split at h
  case h_10 => cases h
  all_goals
    next hn =>
    cases h
    rw [eq_ofNat_of_toNat_eq hn] at hop
    exact hop

theorem encode_of_decodeTE {op : Word} {i : Instr} (hc : fieldClass op = 0xE#4)
    (h : decodeTE op = some i) : encode i = op := by
  have hop := wordXKK_fields op
  rw [hc] at hop
  unfold decodeTE at h
  split at h
  case h_3 => cases h
  all_goals
    next hk =>
    cases h
    rw [eq_ofNat_of_toNat_eq hk] at hop
    exact hop

theorem encode_of_decodeTF {op : Word} {i : Instr} (hc : fieldClass op = 0xF#4)
    (h : decodeTF op = some i) : encode i = op := by
  have hop := wordXKK_fields op
  rw [hc] at hop
  unfold decodeTF at h
  split at h
  case h_10 => cases h
  all_goals
    next hk =>
    cases h
    rw [eq_ofNat_of_toNat_eq hk] at hop
    exact hop

theorem encode_of_decodeTD {op : Word} {i : Instr} (h : decodeTD op = some i) : encode i = op := by
  have hnnn := wordNNN_fields op
  have hxkk := wordXKK_fields op
  have hxyn := wordXYN_fields op
  unfold decodeTD at h
  split at h
  case h_13 => cases h
  all_goals
    next hc =>
    cases h
    rw [eq_ofNat_of_toNat_eq hc] at hnnn hxkk hxyn
    assumption

theorem encode_of_decode {op : Word} {i : Instr} (h : decode op = some i) : encode i = op := by
  unfold decode at h
  split at h
  · exact encode_of_decodeT0 h
  · exact encode_of_decodeT8 (eq_ofNat_of_toNat_eq ‹_›) h
  · exact encode_of_decodeTE (eq_ofNat_of_toNat_eq ‹_›) h
  · exact encode_of_decodeTF (eq_ofNat_of_toNat_eq ‹_›) h
  · exact encode_of_decodeTD h

/-! ### Every instruction is read back from its word -/

/-- The word of an instruction goes to the table that lists it, and its fields are the operands. -/
theorem decode_encode (i : Instr) : decode (encode i) = some i := by
  cases i with
  | cls | ret => rfl
  | ldReg | orReg | andReg | xorReg | addReg | subReg | subnReg | shr | shl =>
    rw [encode, decode_class8 (fieldClass_wordXYN ..)]
    simp [decodeT8]
  | skp | sknp =>
    rw [encode, decode_classE (fieldClass_wordXKK ..)]
    simp [decodeTE]
  | ldKey | ldFromDt | ldDt | ldSt | addI | ldF | ldB | dump | load =>
    rw [encode, decode_classF (fieldClass_wordXKK ..)]
    simp [decodeTF]
  | jp | call | seImm | sneImm | seReg | sneReg | ldImm | addImm | ldI | jpV0 | rnd | drw =>
    rw [encode, decode_other (by simp) (by simp) (by simp) (by simp)]
    simp [decodeTD]

/-! ### The illegal words -/

theorem decodeT0_eq_none_iff (op : Word) :
    decodeT0 op = none ↔ op ≠ 0x00E0#16 ∧ op ≠ 0x00EE#16 := by
  unfold decodeT0
  split
  · simp [*]
  · split <;> simp [*]

theorem decodeT8_eq_none_iff (op : Word) :
    decodeT8 op = none ↔ op.toNat % 16 ∈ [0x8, 0x9, 0xA, 0xB, 0xC, 0xD, 0xF] := by
  rw [← fieldN_toNat]
  have hn := (fieldN op).isLt
  unfold decodeT8
  split
  case h_10 =>
    simp only [List.mem_cons, List.not_mem_nil, or_false, true_iff, imp_false] at *
    omega
  all_goals simp [*]

theorem decodeTE_eq_none_iff (op : Word) :
    decodeTE op = none ↔ op.toNat % 256 ∉ [0x9E, 0xA1] := by
  rw [← fieldKK_toNat]
  unfold decodeTE
  split
  case h_3 => simp_all
  all_goals simp [*]

theorem decodeTF_eq_none_iff (op : Word) :
    decodeTF op = none ↔
      op.toNat % 256 ∉ [0x07, 0x0A, 0x15, 0x18, 0x1E, 0x29, 0x33, 0x55, 0x65] := by
  rw [← fieldKK_toNat]
  unfold decodeTF
  split
  case h_10 => simp_all
  all_goals simp [*]

/-- No word of TD's twelve classes is illegal (R76). -/
theorem decodeTD_eq_none_iff (op : Word) :
    decodeTD op = none ↔ op.toNat / 4096 ∈ [0x0, 0x8, 0xE, 0xF] := by
  rw [← fieldClass_toNat]
  have hc := (fieldClass op).isLt
  unfold decodeTD
  split
  case h_13 =>
    simp only [List.mem_cons, List.not_mem_nil, or_false, true_iff, imp_false] at *
    omega
  all_goals simp [*]

theorem decode_eq_none_iff (op : Word) : decode op = none ↔
    (op.toNat / 4096 = 0x0 ∧ op ≠ 0x00E0#16 ∧ op ≠ 0x00EE#16) ∨
    (op.toNat / 4096 = 0x8 ∧ op.toNat % 16 ∈ [0x8, 0x9, 0xA, 0xB, 0xC, 0xD, 0xF]) ∨
    (op.toNat / 4096 = 0xE ∧ op.toNat % 256 ∉ [0x9E, 0xA1]) ∨
    (op.toNat / 4096 = 0xF ∧
      op.toNat % 256 ∉ [0x07, 0x0A, 0x15, 0x18, 0x1E, 0x29, 0x33, 0x55, 0x65]) := by
  rw [← decodeT0_eq_none_iff, ← decodeT8_eq_none_iff, ← decodeTE_eq_none_iff,
    ← decodeTF_eq_none_iff, ← fieldClass_toNat]
  unfold decode
  split
  case h_5 =>
    rw [decodeTD_eq_none_iff, ← fieldClass_toNat]
    simp_all
  all_goals simp [*]

/-! ### A word that meets a row of the opcode table -/

/-- The word of an instruction meets its row (R78). -/
theorem rowOf_accepts_encode (i : Instr) : (rowOf i).accepts (encode i) = true := by
  cases i with
  | cls => exact Laws.TableRow.cls
  | ret => exact Laws.TableRow.ret
  | jp nnn => exact Laws.TableRow.jp nnn
  | call nnn => exact Laws.TableRow.call nnn
  | seImm x kk => exact Laws.TableRow.seImm x kk
  | sneImm x kk => exact Laws.TableRow.sneImm x kk
  | seReg x y n => exact Laws.TableRow.seReg x y n
  | sneReg x y n => exact Laws.TableRow.sneReg x y n
  | ldImm x kk => exact Laws.TableRow.ldImm x kk
  | addImm x kk => exact Laws.TableRow.addImm x kk
  | ldReg x y => exact Laws.TableRow.ldReg x y
  | orReg x y => exact Laws.TableRow.orReg x y
  | andReg x y => exact Laws.TableRow.andReg x y
  | xorReg x y => exact Laws.TableRow.xorReg x y
  | addReg x y => exact Laws.TableRow.addReg x y
  | subReg x y => exact Laws.TableRow.subReg x y
  | subnReg x y => exact Laws.TableRow.subnReg x y
  | shr x y => exact Laws.TableRow.shr x y
  | shl x y => exact Laws.TableRow.shl x y
  | ldI nnn => exact Laws.TableRow.ldI nnn
  | jpV0 nnn => exact Laws.TableRow.jpV0 nnn
  | rnd x kk => exact Laws.TableRow.rnd x kk
  | drw x y n => exact Laws.TableRow.drw x y n
  | skp x => exact Laws.TableRow.skp x
  | sknp x => exact Laws.TableRow.sknp x
  | ldKey x => exact Laws.TableRow.ldKey x
  | ldFromDt x => exact Laws.TableRow.ldFromDt x
  | ldDt x => exact Laws.TableRow.ldDt x
  | ldSt x => exact Laws.TableRow.ldSt x
  | addI x => exact Laws.TableRow.addI x
  | ldF x => exact Laws.TableRow.ldF x
  | ldB x => exact Laws.TableRow.ldB x
  | dump x => exact Laws.TableRow.dump x
  | load x => exact Laws.TableRow.load x

/-- The row of every instruction stands in the table. -/
theorem rowOf_mem_opcodeTable (i : Instr) : rowOf i ∈ opcodeTable := by
  cases i <;> simp [opcodeTable, sampleInstrsLow, sampleInstrsHigh, rowOf]

/-! ### A field that a mask keeps is the pattern's -/

theorem fieldClass_of_mask {op m p : Word} (hm : fieldClass m = 15#4) (h : op &&& m = p) :
    fieldClass op = fieldClass p := by
  have hand : fieldClass (op &&& m) = fieldClass op &&& fieldClass m := BitVec.extractLsb'_and
  rw [← h, hand, hm, Laws.TableRow.and_full]

theorem fieldN_of_mask {op m p : Word} (hm : fieldN m = 15#4) (h : op &&& m = p) :
    fieldN op = fieldN p := by
  have hand : fieldN (op &&& m) = fieldN op &&& fieldN m := BitVec.extractLsb'_and
  rw [← h, hand, hm, Laws.TableRow.and_full]

theorem fieldKK_of_mask {op m p : Word} (hm : fieldKK m = 255#8) (h : op &&& m = p) :
    fieldKK op = fieldKK p := by
  have hand : fieldKK (op &&& m) = fieldKK op &&& fieldKK m := BitVec.extractLsb'_and
  rw [← h, hand, hm, Laws.TableRow.and_full_byte]

/-- A word that meets a row has the class, and the key, under which the row's table finds it. -/
theorem decode_ne_none_of_accepts {i : Instr} {op : Word} (h : (rowOf i).accepts op = true) :
    decode op ≠ none := by
  rw [OpcodeRow.accepts, beq_iff_eq] at h
  cases i with
  | cls | ret =>
    rw [show op = _ from BitVec.and_allOnes.symm.trans h]
    exact Option.some_ne_none _
  | jp | call | seImm | sneImm | seReg | sneReg | ldImm | addImm | ldI | jpV0 | rnd | drw =>
    simp only [rowOf] at h
    have hc := fieldClass_of_mask (by decide) h
    rw [decode_other (by rw [hc]; decide) (by rw [hc]; decide) (by rw [hc]; decide)
      (by rw [hc]; decide), Ne, decodeTD_eq_none_iff, ← fieldClass_toNat, hc]
    decide
  | ldReg | orReg | andReg | xorReg | addReg | subReg | subnReg | shr | shl =>
    simp only [rowOf] at h
    have hc := fieldClass_of_mask (by decide) h
    rw [decode_class8 (hc.trans (by decide)), Ne, decodeT8_eq_none_iff, ← fieldN_toNat,
      fieldN_of_mask (by decide) h]
    decide
  | skp | sknp =>
    simp only [rowOf] at h
    have hc := fieldClass_of_mask (by decide) h
    rw [decode_classE (hc.trans (by decide)), Ne, decodeTE_eq_none_iff, ← fieldKK_toNat,
      fieldKK_of_mask (by decide) h]
    decide
  | ldKey | ldFromDt | ldDt | ldSt | addI | ldF | ldB | dump | load =>
    simp only [rowOf] at h
    have hc := fieldClass_of_mask (by decide) h
    rw [decode_classF (hc.trans (by decide)), Ne, decodeTF_eq_none_iff, ← fieldKK_toNat,
      fieldKK_of_mask (by decide) h]
    decide

/-! ### Two rows of the opcode table -/

/-- Two rows are told apart by a bit that both masks keep. -/
def OpcodeRow.clash (r q : OpcodeRow) : Prop := r.pattern &&& q.mask ≠ q.pattern &&& r.mask

theorem OpcodeRow.clash.not_both {r q : OpcodeRow} (h : r.clash q) (op : Word) :
    ¬ (r.accepts op = true ∧ q.accepts op = true) := by
  rintro ⟨hr, hq⟩
  rw [OpcodeRow.accepts, beq_iff_eq] at hr hq
  refine h ?_
  rw [← hr, ← hq, BitVec.and_assoc, BitVec.and_assoc, BitVec.and_comm r.mask]

theorem opcodeTable_clash : opcodeTable.Pairwise OpcodeRow.clash := by
  unfold OpcodeRow.clash
  decide

/-! ### The obligations -/

/-- Settles O1: table by table, the word's fields are the operands. -/
theorem encodedInstrDecodesToItself : Obligations.EncodedInstrDecodesToItself := decode_encode

/-- Settles O2: table by table, the word is put together again from its class and its fields. -/
theorem decodedWordIsItsEncoding : Obligations.DecodedWordIsItsEncoding :=
  fun _ _ h => encode_of_decode h

/-- Settles O3: a word that decodes is the encoding of its instruction, which meets its row; a word that
meets a row has the class and the key under which the tables find it. -/
theorem decodingFollowsTheTable : Obligations.DecodingFollowsTheTable := by
  have accepts_of_decode : ∀ (op : Word) (i : Instr), decode op = some i →
      (rowOf i).accepts op = true := by
    intro op i h
    rw [← encode_of_decode h]
    exact rowOf_accepts_encode i
  refine ⟨accepts_of_decode, fun op => ⟨fun h r hr => ?_, fun h => ?_⟩⟩
  · obtain ⟨i, -, rfl⟩ := List.mem_map.1 hr
    exact Bool.eq_false_iff.2 fun ha => decode_ne_none_of_accepts ha h
  · cases hd : decode op with
    | none => rfl
    | some i =>
      have hreject := h _ (rowOf_mem_opcodeTable i)
      rw [accepts_of_decode op i hd] at hreject
      cases hreject

/-- Settles O4: for each pair of rows some bit kept by both masks differs between the patterns. -/
theorem opcodeRowsAreDisjoint : Obligations.OpcodeRowsAreDisjoint :=
  opcodeTable_clash.imp fun h => h.not_both

/-- Settles O5: each table's keys are the complement of the words R79 lists for its class. -/
theorem illegalWordsAreTheListedOnes : Obligations.IllegalWordsAreTheListedOnes := decode_eq_none_iff

/-- Settles O6: the decoder is run on the eight words. -/
theorem writtenOutWordsDecode : Obligations.WrittenOutWordsDecode := by
  unfold Obligations.WrittenOutWordsDecode
  decide

end Sys2Proof
end

section
/-! PROOFS. What the shared operations keep: the frame of each operation that has none yet, and the invariant
through each operation (spec 10_state R24, R25, R36, R39; 40_cycle_and_control R105). -/

namespace Sys2Proof.Machine

/-! ### Frames -/

/-- A write to `DT`, where `DT` may change. -/
theorem State.setDt_changesOnly {parts : List Part} (regs : Reg → Prop) (s : State)
    (hparts : .dt ∈ parts) (b : Byte) : ChangesOnly parts regs s (s.setDt b) where
  regs y _ := s.setDt_reg b y
  index _ := s.setDt_index b
  stack _ := ⟨s.setDt_sp b, s.setDt_stack b⟩
  dt h := absurd hparts h
  st _ := s.setDt_st b
  memory _ _ := congrArg (Memory.byteAt · _) (s.setDt_mem b)
  display _ := s.setDt_display b
  rng _ := s.setDt_rng b
  fault _ := ⟨s.setDt_fault b, s.setDt_toneStop b⟩
  keys := s.setDt_keys b
  ticks := s.setDt_ticks b
  resets := s.setDt_resets b

/-- A write to `ST`, where `ST` may change. -/
theorem State.setSt_changesOnly {parts : List Part} (regs : Reg → Prop) (s : State)
    (hparts : .st ∈ parts) (b : Byte) : ChangesOnly parts regs s (s.setSt b) where
  regs y _ := s.setSt_reg b y
  index _ := s.setSt_index b
  stack _ := ⟨s.setSt_sp b, s.setSt_stack b⟩
  dt _ := s.setSt_dt b
  st h := absurd hparts h
  memory _ _ := congrArg (Memory.byteAt · _) (s.setSt_mem b)
  display _ := s.setSt_display b
  rng _ := s.setSt_rng b
  fault _ := ⟨s.setSt_fault b, s.setSt_toneStop b⟩
  keys := s.setSt_keys b
  ticks := s.setSt_ticks b
  resets := s.setSt_resets b

/-- A write to memory, where memory may change. -/
theorem State.setMem_changesOnly {parts : List Part} (regs : Reg → Prop) (s : State)
    (hparts : .memory ∈ parts) (m : Memory) : ChangesOnly parts regs s (s.setMem m) where
  regs y _ := s.setMem_reg m y
  index _ := s.setMem_index m
  stack _ := ⟨s.setMem_sp m, s.setMem_stack m⟩
  dt _ := s.setMem_dt m
  st _ := s.setMem_st m
  memory h := absurd hparts h
  display _ := s.setMem_display m
  rng _ := s.setMem_rng m
  fault _ := ⟨s.setMem_fault m, s.setMem_toneStop m⟩
  keys := s.setMem_keys m
  ticks := s.setMem_ticks m
  resets := s.setMem_resets m

/-- A draw of a random byte, where the random source may change. -/
theorem State.drawn_changesOnly {parts : List Part} (regs : Reg → Prop) (s : State)
    (hparts : .rng ∈ parts) : ChangesOnly parts regs s s.drawn where
  regs y _ := s.drawn_reg y
  index _ := s.drawn_index
  stack _ := ⟨s.drawn_sp, s.drawn_stack⟩
  dt _ := s.drawn_dt
  st _ := s.drawn_st
  memory _ _ := congrArg (Memory.byteAt · _) s.drawn_mem
  display _ := s.drawn_display
  rng h := absurd hparts h
  fault _ := ⟨s.drawn_fault, s.drawn_toneStop⟩
  keys := s.drawn_keys
  ticks := s.drawn_ticks
  resets := s.drawn_resets

/-- The register file replaced by one that agrees on the registers that may not change. -/
theorem State.setRegs_changesOnly (parts : List Part) {regs : Reg → Prop} (s : State)
    {w : Vector Byte 16} (hw : ∀ y, ¬ regs y → w[y.val] = s.reg y) :
    ChangesOnly parts regs s (s.setRegs w) where
  regs y hy := (s.setRegs_reg w y).trans (hw y hy)
  index _ := s.setRegs_index w
  stack _ := ⟨s.setRegs_sp w, s.setRegs_stack w⟩
  dt _ := s.setRegs_dt w
  st _ := s.setRegs_st w
  memory _ _ := congrArg (Memory.byteAt · _) (s.setRegs_mem w)
  display _ := s.setRegs_display w
  rng _ := s.setRegs_rng w
  fault _ := ⟨s.setRegs_fault w, s.setRegs_toneStop w⟩
  keys := s.setRegs_keys w
  ticks := s.setRegs_ticks w
  resets := s.setRegs_resets w

/-- A push or a pop, where the stack may change. -/
theorem State.withStack_changesOnly {parts : List Part} (regs : Reg → Prop) (s : State)
    (hparts : .stack ∈ parts) (stack : Vector Word Config.stackDepth)
    (sp : Fin (Config.stackDepth + 1)) :
    ChangesOnly parts regs s { s with stack := stack, sp := sp } where
  regs _ _ := rfl
  index _ := rfl
  stack h := absurd hparts h
  dt _ := rfl
  st _ := rfl
  memory _ _ := rfl
  display _ := rfl
  rng _ := rfl
  fault _ := ⟨rfl, rfl⟩
  keys := rfl
  ticks := rfl
  resets := rfl

theorem ChangesOnly.memoryElsewhere {parts : List Part} {regs : Reg → Prop} {s t : State}
    (h : ChangesOnly parts regs s t) (hm : .memory ∉ parts) (a n : Nat) :
    MemoryElsewhere a n s t :=
  fun b _ => h.memory hm b

/-! ### The invariant -/

/-- An instruction is fetched from 4094 at the most, so `pc` plus 2 or 4 does not wrap (log entry 11). -/
theorem add_toNat_of_le {w k : Word} (hw : w.toNat ≤ 4094) (hk : k.toNat ≤ 256) :
    (w + k).toNat = w.toNat + k.toNat :=
  BitVec.toNat_add_of_lt (by omega)

theorem add_toNat_le {w k : Word} (hw : w.toNat ≤ 4094) (hk : k.toNat ≤ 256) :
    (w + k).toNat ≤ 4350 := by
  rw [add_toNat_of_le hw hk]
  omega

section
variable {s : State}

theorem State.Inv.setReg (h : s.Inv) (x : Reg) (b : Byte) : (s.setReg x b).Inv :=
  ⟨h.mem, h.index, h.pc, h.stack, h.tone⟩

theorem State.Inv.setRegs (h : s.Inv) (w : Vector Byte 16) : (s.setRegs w).Inv :=
  ⟨h.mem, h.index, h.pc, h.stack, h.tone⟩

theorem State.Inv.setDt (h : s.Inv) (b : Byte) : (s.setDt b).Inv :=
  ⟨h.mem, h.index, h.pc, h.stack, h.tone⟩

theorem State.Inv.setSt (h : s.Inv) (b : Byte) : (s.setSt b).Inv :=
  ⟨h.mem, h.index, h.pc, h.stack, h.tone⟩

theorem State.Inv.setDisplay (h : s.Inv) (d : Surface) : (s.setDisplay d).Inv :=
  ⟨h.mem, h.index, h.pc, h.stack, h.tone⟩

theorem State.Inv.setKeys (h : s.Inv) (ks : List KeySample) : (s.setKeys ks).Inv :=
  ⟨h.mem, h.index, h.pc, h.stack, h.tone⟩

theorem State.Inv.drawn (h : s.Inv) : s.drawn.Inv := ⟨h.mem, h.index, h.pc, h.stack, h.tone⟩

theorem State.Inv.setIndex (h : s.Inv) {w : Word} (hw : w.toNat < 4096) : (s.setIndex w).Inv :=
  ⟨h.mem, hw, h.pc, h.stack, h.tone⟩

theorem State.Inv.setMem (h : s.Inv) {m : Memory} (hm : m.wf) : (s.setMem m).Inv :=
  ⟨hm, h.index, h.pc, h.stack, h.tone⟩

theorem State.Inv.goTo (h : s.Inv) {w : Word} (hw : w.toNat ≤ 4350) : (s.goTo w).Inv :=
  ⟨h.mem, h.index, hw, h.stack, h.tone⟩

theorem State.Inv.skipIf (h : s.Inv) (hpc : s.pc.toNat ≤ 4094) (c : Bool) : (s.skipIf c).Inv := by
  cases c with
  | true => exact h.goTo (add_toNat_le hpc (by decide))
  | false => exact h.goTo (add_toNat_le hpc (by decide))

theorem State.Inv.advance (h : s.Inv) (hpc : s.pc.toNat ≤ 4094) : s.advance.Inv :=
  h.skipIf hpc false

/-- A push of the address of a fetched call keeps every live entry at most 4094 (R105). -/
theorem State.Inv.push (h : s.Inv) {w : Word} (hw : w.toNat ≤ 4094)
    (hsp : s.sp.val < Config.stackDepth) :
    State.Inv { s with
      stack := s.stack.set s.sp.val w hsp, sp := ⟨s.sp.val + 1, Nat.succ_lt_succ hsp⟩ } where
  mem := h.mem
  index := h.index
  pc := h.pc
  stack k hk := by
    have hlive : k.val < s.sp.val + 1 := hk
    rw [Vector.getElem_set]
    split
    · exact hw
    · exact h.stack k (by omega)
  tone := h.tone

/-- A pop leaves fewer live entries. -/
theorem State.Inv.pop (h : s.Inv) {sp : Fin (Config.stackDepth + 1)} (hsp : sp.val ≤ s.sp.val) :
    State.Inv { s with sp := sp } where
  mem := h.mem
  index := h.index
  pc := h.pc
  stack k hk := h.stack k (Nat.lt_of_lt_of_le hk hsp)
  tone := h.tone

/-- A cycle that completes has no fault, so nothing is asked of the tone. -/
theorem State.Inv.endCycle (h : s.Inv) (hf : s.fault = none) : s.endCycle.Inv where
  mem := h.mem
  index := h.index
  pc := h.pc
  stack := h.stack
  tone hs := by
    rw [State.endCycle_fault, hf] at hs
    cases hs

/-- The entry of a fault (60_exceptions R244): the record is set, `tone_stop` is 0, and nothing else
changes. -/
def State.faultedWith (s : State) (r : FaultRecord) : State :=
  { s with fault := some r, toneStop := false }

theorem State.Inv.faultedWith (h : s.Inv) (r : FaultRecord) : (s.faultedWith r).Inv :=
  ⟨h.mem, h.index, h.pc, h.stack, fun _ => rfl⟩

end

end Sys2Proof.Machine
end

section
/-! PROOFS. What one instruction can do (spec 40_cycle_and_control R100 step 4, 60_exceptions R240): it faults
exactly where the table of faults says and then leaves everything but the record, or it completes, writes only
what the spec names for it and keeps the invariant. -/

namespace Sys2Proof.Machine

/-! ### One equation per instruction -/

theorem exec_call (nnn : Addr12) (s : State) : exec (.call nnn) s = execCall nnn s := rfl

theorem exec_jpV0 (nnn : Addr12) (s : State) :
    exec (.jpV0 nnn) s = .next (s.goTo (wide (s.reg 0) + addrOperand nnn)) := rfl

theorem exec_seReg (x y : Reg) (n : Nibble) (s : State) :
    exec (.seReg x y n) s = .next (s.skipIf (s.reg x == s.reg y)) := rfl

theorem exec_sneReg (x y : Reg) (n : Nibble) (s : State) :
    exec (.sneReg x y n) s = .next (s.skipIf (s.reg x != s.reg y)) := rfl

theorem exec_addReg (x y : Reg) (s : State) : exec (.addReg x y) s =
    .next (s.resultThenFlag x (s.reg x + s.reg y) (carryFlag (s.reg x) (s.reg y))) := rfl

theorem exec_subReg (x y : Reg) (s : State) : exec (.subReg x y) s =
    .next (s.flagThenResult x (greaterFlag (s.reg x) (s.reg y)) (s.reg x - s.reg y)) := rfl

theorem exec_subnReg (x y : Reg) (s : State) : exec (.subnReg x y) s =
    .next (s.flagThenResult x (greaterFlag (s.reg y) (s.reg x)) (s.reg y - s.reg x)) := rfl

theorem exec_shr (x y : Reg) (s : State) : exec (.shr x y) s =
    .next (s.flagThenResult x (lowBitFlag (s.reg x)) (s.reg x >>> 1)) := rfl

theorem exec_shl (x y : Reg) (s : State) : exec (.shl x y) s =
    .next (s.flagThenResult x (highBitFlag (s.reg x)) (s.reg x <<< 1)) := rfl

theorem exec_rnd (x : Reg) (kk : Byte) (s : State) :
    exec (.rnd x kk) s = .next (s.drawn.setReg x (kk &&& s.randomByte)).advance := rfl

theorem exec_skp (x : Reg) (s : State) :
    exec (.skp x) s = .next (s.skipIf (keyIs s.key (s.reg x))) := rfl

theorem exec_sknp (x : Reg) (s : State) :
    exec (.sknp x) s = .next (s.skipIf (!keyIs s.key (s.reg x))) := rfl

theorem exec_ldKey (x : Reg) (s : State) : exec (.ldKey x) s = .next (s.awaitKey x) := rfl

theorem exec_ldDt (x : Reg) (s : State) :
    exec (.ldDt x) s = .next (s.setDt (s.reg x)).advance := rfl

theorem exec_ldSt (x : Reg) (s : State) :
    exec (.ldSt x) s = .next (s.setSt (s.reg x)).advance := rfl

theorem exec_addI (x : Reg) (s : State) : exec (.addI x) s = .next (s.setIndex
    (BitVec.ofNat 16 ((s.base + (s.reg x).toNat) % Config.indexMod))).advance := rfl

theorem exec_ldF (x : Reg) (s : State) :
    exec (.ldF x) s = .next (s.setIndex (5 * wide (s.reg x))).advance := rfl

theorem exec_ldB (x : Reg) (s : State) : exec (.ldB x) s =
    .next (s.storeAtIndex (encode (.ldB x)) (decimalDigits (s.reg x))) := rfl

theorem exec_dump (x : Reg) (s : State) : exec (.dump x) s =
    .next (s.storeAtIndex (encode (.dump x)) (s.regsUpTo x)) := rfl

/-! ### The values that `pc` and `I` can take -/

theorem State.base_eq (s : State) : s.base = s.index.toNat := rfl

/-- The offset jump does not wrap (R108): a byte and a 12-bit address are far below 65536. -/
theorem offsetTarget_toNat (b : Byte) (nnn : Addr12) :
    (wide b + addrOperand nnn).toNat = b.toNat + nnn.toNat := by
  have hb := b.isLt
  have hn := nnn.isLt
  rw [BitVec.toNat_add, wide_toNat, addrOperand_toNat]
  omega

/-- The font pointer does not wrap (42_index_and_memory R163). -/
theorem fontPointer_toNat (b : Byte) : (5 * wide b : Word).toNat = 5 * b.toNat := by
  have hb := b.isLt
  rw [BitVec.toNat_mul, wide_toNat]
  show 5 * b.toNat % 65536 = 5 * b.toNat
  omega

/-- The sum of `ADD I` is reduced modulo 4096, so it is the number written (R161). -/
theorem indexSum_toNat (a b : Nat) :
    (BitVec.ofNat 16 ((a + b) % Config.indexMod)).toNat = (a + b) % 4096 := by
  rw [BitVec.toNat_ofNat]
  simp only [Config.indexMod]
  omega

theorem addrOperand_lt (nnn : Addr12) : (addrOperand nnn).toNat < 4096 := by
  rw [addrOperand_toNat]
  exact nnn.isLt

/-! ### The outcome of an instruction -/

/-- The fault record an instruction leaves, or none, as the table of 60_exceptions R240 has it. -/
def instrFault (i : Instr) (s : State) : Option FaultRecord :=
  match i with
  | .ret => if s.sp.val = 0 then some ⟨.stackUnderflow, some (encode i), s.pc, none⟩ else none
  | .call _ => if s.sp.val = 16 then some ⟨.stackOverflow, some (encode i), s.pc, none⟩ else none
  | _ =>
    if dataBytes i ≠ 0 ∧ 4096 < s.index.toNat + dataBytes i then
      some ⟨.memOutOfRange, some (encode i), s.pc, some (max s.index.toNat 4096)⟩
    else none

theorem instrFault_ret (s : State) : instrFault .ret s =
    if s.sp.val = 0 then some ⟨.stackUnderflow, some (encode .ret), s.pc, none⟩ else none := rfl

theorem instrFault_call (nnn : Addr12) (s : State) : instrFault (.call nnn) s =
    if s.sp.val = 16 then some ⟨.stackOverflow, some (encode (.call nnn)), s.pc, none⟩ else none :=
  rfl

/-- What an instruction that raises no fault does: its frame, where it stores, and the invariant. -/
structure Completes (i : Instr) (s t : State) : Prop where
  frame : ChangesOnly (partsWritten i) (regsWritten i) s t
  elsewhere : MemoryElsewhere s.index.toNat (dataBytes i) s t
  inv : s.Inv → s.pc.toNat ≤ 4094 → t.Inv

/-- An instruction faults with its record, or completes. -/
inductive ExecOutcome (i : Instr) (s : State) : Prop where
  | faulted (r : FaultRecord) : instrFault i s = some r → exec i s = .next (s.faultedWith r) →
      ExecOutcome i s
  | completed (t : State) : instrFault i s = none → exec i s = .next t → Completes i s t →
      ExecOutcome i s

/-- An instruction that does not write memory stores nowhere. -/
theorem Completes.of_frame {i : Instr} {s t : State} (hm : .memory ∉ partsWritten i)
    (frame : ChangesOnly (partsWritten i) (regsWritten i) s t)
    (inv : s.Inv → s.pc.toNat ≤ 4094 → t.Inv) : Completes i s t :=
  ⟨frame, frame.memoryElsewhere hm _ _, inv⟩

theorem ExecOutcome.of_frame {i : Instr} {s t : State} (hi : instrFault i s = none)
    (he : exec i s = .next t) (hm : .memory ∉ partsWritten i)
    (frame : ChangesOnly (partsWritten i) (regsWritten i) s t)
    (inv : s.Inv → s.pc.toNat ≤ 4094 → t.Inv) : ExecOutcome i s :=
  .completed t hi he (.of_frame hm frame inv)

/-- An instruction that leaves the stack alone can fault only for its data bytes. -/
theorem instrFault_of_no_stack {i : Instr} (hs : .stack ∉ partsWritten i) (s : State) :
    instrFault i s =
      if dataBytes i ≠ 0 ∧ 4096 < s.index.toNat + dataBytes i then
        some ⟨.memOutOfRange, some (encode i), s.pc, some (max s.index.toNat 4096)⟩
      else none := by
  cases i with
  | ret | call => exact absurd (List.mem_singleton_self _) hs
  | _ => rfl

theorem instrFault_eq_none {i : Instr} (hd : dataBytes i = 0) (hs : .stack ∉ partsWritten i)
    (s : State) : instrFault i s = none :=
  (instrFault_of_no_stack hs s).trans (if_neg fun h => h.1 hd)

theorem memory_notMem_partsWritten {i : Instr} (hd : dataBytes i = 0) : .memory ∉ partsWritten i := by
  cases i with
  | ldB | dump => cases hd
  | _ => simp [partsWritten]

/-- An instruction that touches no data memory and no stack cannot fault. -/
theorem ExecOutcome.of_plain {i : Instr} {s t : State} (hd : dataBytes i = 0)
    (hs : .stack ∉ partsWritten i) (he : exec i s = .next t)
    (frame : ChangesOnly (partsWritten i) (regsWritten i) s t)
    (inv : s.Inv → s.pc.toNat ≤ 4094 → t.Inv) : ExecOutcome i s :=
  .of_frame (instrFault_eq_none hd hs s) he (memory_notMem_partsWritten hd) frame inv

theorem execOutcome_ret (s : State) : ExecOutcome .ret s := by
  rcases Nat.eq_zero_or_pos s.sp.val with h0 | hpos
  · exact .faulted _ (if_pos h0) (execRet_of_empty s h0)
  · obtain ⟨k, hk⟩ : ∃ k, k + 1 = s.sp.val := ⟨s.sp.val - 1, by omega⟩
    have hlt : k < Config.stackDepth := by have := s.sp.isLt; omega
    refine .of_frame (if_neg (by omega)) (execRet_of_entry s k hk hlt) (by simp [partsWritten])
      ((s.withStack_changesOnly _ (List.mem_singleton_self _) s.stack _).trans
        (State.goTo_changesOnly _ _ _ _)) fun h hpc => ?_
    have hentry := h.stack ⟨k, hlt⟩ (by show k < s.sp.val; omega)
    exact (h.pop (by show k ≤ s.sp.val; omega)).goTo (add_toNat_le hentry (by decide))

theorem execOutcome_call (nnn : Addr12) (s : State) : ExecOutcome (.call nnn) s := by
  rcases Nat.lt_or_ge s.sp.val Config.stackDepth with hroom | hfull
  · exact .of_frame (if_neg (by simp only [Config.stackDepth] at hroom; omega))
      (execCall_of_room s nnn hroom) (by simp [partsWritten])
      ((s.withStack_changesOnly _ (List.mem_singleton_self _) _ _).trans
        (State.goTo_changesOnly _ _ _ _))
      fun h hpc => (h.push hpc hroom).goTo (by have := addrOperand_lt nnn; omega)
  · have hsp : s.sp.val = Config.stackDepth := by have := s.sp.isLt; omega
    exact .faulted _ (if_pos hsp) (execCall_of_full s nnn hsp)

theorem execOutcome_drw (x y : Reg) (n : Nibble) (s : State) : ExecOutcome (.drw x y n) s := by
  by_cases hin : n.toNat = 0 ∨ s.base + n.toNat ≤ Config.memSize
  · refine .of_frame (if_neg ?_) (execDrw_of_inside x y n s hin) (by simp [partsWritten])
      (((s.setDisplay_changesOnly _ (List.mem_singleton_self _) _).trans
        (State.setReg_changesOnly _ (· = 15) _ rfl _)).trans (State.goTo_changesOnly _ _ _ _))
      fun h hpc => ((h.setDisplay _).setReg _ _).advance hpc
    simp only [dataBytes, State.base_eq, Config.memSize] at hin ⊢
    omega
  · refine .faulted _ (if_pos ?_) (execDrw_of_outside x y n s hin)
    simp only [dataBytes, State.base_eq, Config.memSize] at hin ⊢
    omega

/-- Both storing instructions, by the bytes they store. -/
theorem execOutcome_store {i : Instr} {s : State} {bs : List Byte}
    (he : exec i s = .next (s.storeAtIndex (encode i) bs)) (hparts : partsWritten i = [.memory])
    (hlen : bs.length = dataBytes i) (hpos : dataBytes i ≠ 0) : ExecOutcome i s := by
  have hfault := instrFault_of_no_stack (i := i) (by simp [hparts]) s
  rcases Nat.lt_or_ge 4096 (s.base + bs.length) with hout | hin
  · have hne : bs ≠ [] := fun h => hpos (by rw [← hlen, h, List.length_nil])
    refine .faulted _ (hfault.trans (if_pos ⟨hpos, by rwa [← hlen, ← s.base_eq]⟩)) ?_
    rw [he, s.storeAtIndex_fault _ _ hne hout]
    rfl
  · obtain ⟨m, hm, hwf, hbytes⟩ := s.storeAtIndex_ok (encode i) bs hin
    rw [hm] at he
    have hmem : .memory ∈ partsWritten i := by rw [hparts]; exact List.mem_singleton_self _
    refine .completed _ (hfault.trans (if_neg ?_)) he ⟨?_, ?_, ?_⟩
    · rw [← hlen, ← s.base_eq]; omega
    · exact (s.setMem_changesOnly _ hmem m).trans (State.goTo_changesOnly _ _ _ _)
    · intro b hb
      rw [← hlen, ← s.base_eq] at hb
      rw [State.advance_mem, State.setMem_mem, hbytes, if_neg hb]
    · exact fun h hpc => (h.setMem (hwf h.mem)).advance hpc

/-- The registers above `Vx` are not loaded (42_index_and_memory R166). -/
theorem loadFrom_above (s : State) (x y : Reg) (bs : List Byte) (hlen : bs.length = x.val + 1)
    (hy : ¬ y ≤ x) : (loadFrom s.v 0 bs)[y.val] = s.reg y := by
  have hxy : x.val < y.val := Nat.lt_of_not_le hy
  rw [loadFrom_getElem, if_neg (by omega)]
  rfl

theorem execOutcome_load (x : Reg) (s : State) : ExecOutcome (.load x) s := by
  rcases Nat.lt_or_ge Config.memSize (s.base + (x.val + 1)) with hout | hin
  · exact .faulted _ (if_pos ⟨Nat.succ_ne_zero _, hout⟩) (execLoad_of_outside x s hout)
  · exact .of_frame (if_neg fun h => absurd h.2 (Nat.not_lt.2 hin)) (execLoad_of_inside x s hin)
      (by simp [partsWritten])
      ((s.setRegs_changesOnly _ fun y hy => loadFrom_above s x y _ (by simp) hy).trans
        (State.goTo_changesOnly _ _ _ _))
      fun h hpc => (h.setRegs _).advance hpc

theorem execOutcome_ldKey (x : Reg) (s : State) : ExecOutcome (.ldKey x) s := by
  have hs : Part.stack ∉ partsWritten (.ldKey x) := List.not_mem_nil
  cases hk : s.key with
  | none =>
    exact .of_plain rfl hs (by rw [exec_ldKey, s.awaitKey_of_none x hk])
      (s.goTo_changesOnly _ _ _) fun h hpc => h.goTo h.pc
  | some k =>
    exact .of_plain rfl hs (by rw [exec_ldKey, s.awaitKey_of_some x k hk])
      (s.setReg_advance_changesOnly x _) fun h hpc => (h.setReg x _).advance hpc

theorem State.writeTwo_changesOnly (parts : List Part) (s : State) (x z y w : Reg) (a b : Byte)
    (hz : z = x ∨ z = y) (hw : w = x ∨ w = y) :
    ChangesOnly parts (fun r => r = x ∨ r = y) s ((s.setReg z a).setReg w b).advance :=
  ((s.setReg_changesOnly parts (fun r => r = x ∨ r = y) hz a).trans
    (State.setReg_changesOnly parts (fun r => r = x ∨ r = y) (s.setReg z a) hw b)).trans
      (State.goTo_changesOnly _ _ _ _)

/-- Every instruction, in every state, faults with its record or completes. -/
theorem exec_outcome (i : Instr) (s : State) : ExecOutcome i s := by
  cases i with
  | ret => exact execOutcome_ret s
  | call nnn => exact execOutcome_call nnn s
  | drw x y n => exact execOutcome_drw x y n s
  | ldB x => exact execOutcome_store (exec_ldB x s) rfl rfl (Nat.succ_ne_zero _)
  | dump x =>
    exact execOutcome_store (exec_dump x s) rfl (s.regsUpTo_length x) (Nat.succ_ne_zero _)
  | load x => exact execOutcome_load x s
  | ldKey x => exact execOutcome_ldKey x s
  | cls =>
    exact .of_plain rfl (by simp [partsWritten]) (exec_cls s)
      (s.setDisplay_advance_changesOnly _) fun h hpc => (h.setDisplay _).advance hpc
  | jp nnn =>
    exact .of_plain rfl (by simp [partsWritten]) (exec_jp nnn s) (s.goTo_changesOnly _ _ _)
      fun h hpc => h.goTo (by have := addrOperand_lt nnn; omega)
  | jpV0 nnn =>
    refine .of_plain rfl (by simp [partsWritten]) (exec_jpV0 nnn s) (s.goTo_changesOnly _ _ _)
      fun h hpc => h.goTo ?_
    have hb := (s.reg 0).isLt
    have hn := nnn.isLt
    rw [offsetTarget_toNat]
    omega
  | seImm | sneImm | seReg | sneReg | skp | sknp =>
    exact .of_plain rfl (by simp [partsWritten]) rfl (s.skipIf_changesOnly _ _ _)
      fun h hpc => h.skipIf hpc _
  | ldImm x | addImm x | ldReg x | orReg x | andReg x | xorReg x | ldFromDt x =>
    exact .of_plain rfl (by simp [partsWritten]) rfl (s.setReg_advance_changesOnly x _)
      fun h hpc => (h.setReg x _).advance hpc
  | addReg x =>
    exact .of_plain rfl (by simp [partsWritten]) rfl
      (s.writeTwo_changesOnly _ x x vf vf _ _ (.inl rfl) (.inr rfl))
      fun h hpc => ((h.setReg x _).setReg vf _).advance hpc
  | subReg x | subnReg x | shr x | shl x =>
    exact .of_plain rfl (by simp [partsWritten]) rfl
      (s.writeTwo_changesOnly _ x vf vf x _ _ (.inr rfl) (.inl rfl))
      fun h hpc => ((h.setReg vf _).setReg x _).advance hpc
  | ldI nnn =>
    exact .of_plain rfl (by simp [partsWritten]) (exec_ldI nnn s)
      (s.setIndex_advance_changesOnly _) fun h hpc => (h.setIndex (addrOperand_lt nnn)).advance hpc
  | addI x =>
    refine .of_plain rfl (by simp [partsWritten]) (exec_addI x s)
      (s.setIndex_advance_changesOnly _) fun h hpc => (h.setIndex ?_).advance hpc
    rw [indexSum_toNat]
    omega
  | ldF x =>
    refine .of_plain rfl (by simp [partsWritten]) (exec_ldF x s)
      (s.setIndex_advance_changesOnly _) fun h hpc => (h.setIndex ?_).advance hpc
    have hb := (s.reg x).isLt
    rw [fontPointer_toNat]
    omega
  | rnd x kk =>
    exact .of_plain rfl (by simp [partsWritten]) (exec_rnd x kk s)
      (((s.drawn_changesOnly _ (List.mem_singleton_self _)).trans
        (State.setReg_changesOnly _ (· = x) _ rfl _)).trans (State.goTo_changesOnly _ _ _ _))
      fun h hpc => (h.drawn.setReg x _).advance hpc
  | ldDt x =>
    exact .of_plain rfl (by simp [partsWritten]) (exec_ldDt x s)
      ((s.setDt_changesOnly _ (List.mem_singleton_self _) _).trans (State.goTo_changesOnly _ _ _ _))
      fun h hpc => (h.setDt _).advance hpc
  | ldSt x =>
    exact .of_plain rfl (by simp [partsWritten]) (exec_ldSt x s)
      ((s.setSt_changesOnly _ (List.mem_singleton_self _) _).trans (State.goTo_changesOnly _ _ _ _))
      fun h hpc => (h.setSt _).advance hpc

/-! ### What the answer of an instruction tells -/

/-- Inversion of `exec`: the state answered is the fault entry, or that of a completed instruction. -/
theorem exec_cases {i : Instr} {s t : State} (he : exec i s = .next t) :
    (∃ r, instrFault i s = some r ∧ t = s.faultedWith r) ∨
    (instrFault i s = none ∧ Completes i s t) := by
  rcases exec_outcome i s with ⟨r, hr, he'⟩ | ⟨t', hnone, he', hc⟩
  · rw [he] at he'
    cases he'
    exact .inl ⟨r, hr, rfl⟩
  · rw [he] at he'
    cases he'
    exact .inr ⟨hnone, hc⟩

theorem completes_of_no_instrFault {i : Instr} {s t : State} (hi : instrFault i s = none)
    (he : exec i s = .next t) : Completes i s t := by
  rcases exec_cases he with ⟨r, hr, -⟩ | ⟨-, hc⟩
  · rw [hi] at hr
    cases hr
  · exact hc

theorem completes_of_fault_eq_none {i : Instr} {s t : State} (he : exec i s = .next t)
    (ht : t.fault = none) : Completes i s t := by
  rcases exec_cases he with ⟨r, -, rfl⟩ | ⟨-, hc⟩
  · cases ht
  · exact hc

end Sys2Proof.Machine
end

section
/-! PROOFS. What one step can do (spec 40_cycle_and_control R100, 60_exceptions R240, R244, R248): the tick is
ignored, or it faults in one of the cases of the table of faults, or the cycle completes. The statements about
the cycle, the faults and the invariant follow from this inversion. -/

namespace Sys2Proof.Machine

/-! ### When a fault is due -/

theorem Fetches.pc_le {s : State} {i : Instr} (h : Fetches s i) : s.pc.toNat ≤ 4094 := by
  have hpc := h.2.1
  omega

theorem Fetches.encode_eq {s : State} {i : Instr} (h : Fetches s i) : encode i = s.wordAtPc :=
  encode_of_decode h.2.2

/-- Past the last word the one fault due is that of the fetch. -/
theorem faultDue_iff_of_noFetch {s : State} (hp : 4095 ≤ s.pc.toNat) (r : FaultRecord) :
    FaultDue s r ↔ r = ⟨.fetchOutOfRange, none, s.pc, some s.pc.toNat⟩ := by
  constructor
  · intro h
    cases h with
    | fetchOutOfRange => rfl
    | decodeFault hlt | stackOverflow _ hlt | stackUnderflow hlt | memOutOfRange _ hlt => omega
  · rintro rfl
    exact .fetchOutOfRange hp

/-- For an illegal word the one fault due is that of the decoding. -/
theorem faultDue_iff_of_illegal {s : State} (hp : s.pc.toNat < 4095) (hd : decode s.wordAtPc = none)
    (r : FaultRecord) : FaultDue s r ↔ r = ⟨.decodeFault, some s.wordAtPc, s.pc, none⟩ := by
  constructor
  · intro h
    cases h with
    | fetchOutOfRange hge => omega
    | decodeFault => rfl
    | stackOverflow _ _ hi | stackUnderflow _ hi | memOutOfRange _ _ hi => rw [hd] at hi; cases hi
  · rintro rfl
    exact .decodeFault hp hd

/-- For a fetched instruction the fault due is the instruction's own. -/
theorem faultDue_iff_of_fetches {s : State} {i : Instr} (hi : Fetches s i) (r : FaultRecord) :
    FaultDue s r ↔ instrFault i s = some r := by
  have hp : s.pc.toNat < 4095 := Nat.lt_succ_of_le hi.pc_le
  have hd := hi.2.2
  have hw := hi.encode_eq
  constructor
  · intro h
    cases h with
    | fetchOutOfRange hge => omega
    | decodeFault _ hn => rw [hd] at hn; cases hn
    | stackOverflow nnn _ hn hsp =>
      rw [hd, Option.some.injEq] at hn
      subst hn
      rw [← hw]
      exact if_pos hsp
    | stackUnderflow _ hn hsp =>
      rw [hd, Option.some.injEq] at hn
      subst hn
      rw [← hw]
      exact if_pos hsp
    | memOutOfRange j _ hn hout =>
      rw [hd, Option.some.injEq] at hn
      subst hn
      have hs : .stack ∉ partsWritten i := by
        cases i with
        | ret | call => exact absurd rfl hout.1
        | _ => simp [partsWritten]
      rw [instrFault_of_no_stack hs, hw]
      exact if_pos hout
  · intro h
    have hmem : .stack ∉ partsWritten i → FaultDue s r := by
      intro hs
      rw [instrFault_of_no_stack hs, Option.ite_none_right_eq_some] at h
      obtain ⟨hout, hr⟩ := h
      cases hr
      rw [hw]
      exact .memOutOfRange i hp hd hout
    cases i with
    | ret =>
      rw [instrFault_ret, Option.ite_none_right_eq_some] at h
      obtain ⟨hsp, hr⟩ := h
      cases hr
      rw [hw]
      exact .stackUnderflow hp hd hsp
    | call nnn =>
      rw [instrFault_call, Option.ite_none_right_eq_some] at h
      obtain ⟨hsp, hr⟩ := h
      cases hr
      rw [hw]
      exact .stackOverflow nnn hp hd hsp
    | _ => exact hmem (by simp [partsWritten])

/-! ### The outcome of a step -/

/-- What one tick can do to a state. -/
inductive StepOutcome (s : State) : State → Prop where
  | ignored : s.fault ≠ none → StepOutcome s s
  | faulted (r : FaultRecord) : s.fault = none → (∀ r', FaultDue s r' ↔ r' = r) →
      StepOutcome s (s.faultedWith r)
  | completed (i : Instr) (t : State) : Fetches s i → exec i s = .next t → Completes i s t →
      (∀ r, ¬ FaultDue s r) → StepOutcome s t.endCycle

/-- No instruction names the fault record among the parts it writes. -/
theorem fault_notMem_partsWritten (i : Instr) : .fault ∉ partsWritten i := by
  cases i <;> simp [partsWritten]

theorem Completes.fault_eq {i : Instr} {s t : State} (h : Completes i s t) : t.fault = s.fault :=
  (h.frame.fault (fault_notMem_partsWritten i)).1

theorem step_outcome_of_fetches {s : State} {i : Instr} (hi : Fetches s i) :
    ∃ u, step s = .next u ∧ StepOutcome s u := by
  rcases exec_outcome i s with ⟨r, hr, he⟩ | ⟨t, hnone, he, hc⟩
  · refine ⟨_, ?_, .faulted r hi.1 fun r' => ?_⟩
    · rw [step_of_fetches s i hi, runDecoded, he]
      simp only [State.afterExec_of_fault (s.faultedWith r) rfl]
    · rw [faultDue_iff_of_fetches hi, hr, Option.some.injEq, eq_comm]
  · refine ⟨_, step_of_exec s t i hi he (hc.fault_eq.trans hi.1), .completed i t hi he hc ?_⟩
    intro r
    rw [faultDue_iff_of_fetches hi, hnone]
    exact nofun

/-- Every tick has a next state, and it is one of the three outcomes. -/
theorem step_outcome (s : State) : ∃ u, step s = .next u ∧ StepOutcome s u := by
  by_cases hf : s.fault = none
  · rcases Nat.lt_or_ge s.pc.toNat 4095 with hp | hp
    · have hword : s.pc.toNat + 1 < Config.memSize := Nat.succ_lt_succ hp
      cases hd : decode s.wordAtPc with
      | none => exact ⟨_, step_of_illegal s hf hword hd, .faulted _ hf (faultDue_iff_of_illegal hp hd)⟩
      | some i => exact step_outcome_of_fetches ⟨hf, hword, hd⟩
    · exact ⟨_, step_of_noFetch s hf (Nat.succ_le_succ hp), .faulted _ hf (faultDue_iff_of_noFetch hp)⟩
  · exact ⟨s, step_of_faulted s (Option.isSome_iff_ne_none.2 hf), .ignored hf⟩

theorem stepOutcome_of_step {s u : State} (h : step s = .next u) : StepOutcome s u := by
  obtain ⟨u', hu', ho⟩ := step_outcome s
  rw [hu'] at h
  cases h
  exact ho

/-- A step of a fetched instruction that ends with no fault completed that instruction. -/
theorem completes_of_step {s u : State} {i : Instr} (hi : Fetches s i) (h : step s = .next u)
    (hu : u.fault = none) : ∃ t, exec i s = .next t ∧ Completes i s t ∧ u = t.endCycle := by
  cases stepOutcome_of_step h with
  | ignored hf => exact absurd hi.1 hf
  | faulted r => cases hu
  | completed j t hj he hc =>
    have hij : some i = some j := hi.2.2.symm.trans hj.2.2
    cases hij
    exact ⟨t, he, hc, rfl⟩

/-- A step that ends with a fault was ignored or only recorded it. -/
theorem StepOutcome.eq_of_fault {s u : State} (h : StepOutcome s u) (hu : u.fault ≠ none) :
    (s.fault ≠ none ∧ u = s) ∨ ∃ r, s.fault = none ∧ FaultDue s r ∧ u = s.faultedWith r := by
  cases h with
  | ignored hf => exact .inl ⟨hf, rfl⟩
  | faulted r hf hdue => exact .inr ⟨r, hf, (hdue r).2 rfl, rfl⟩
  | completed i t hi he hc => exact absurd (hc.fault_eq.trans hi.1) hu

/-- The record a step leaves is the one that was due. -/
theorem StepOutcome.fault_eq_some_iff {s u : State} (h : StepOutcome s u) (hs : s.fault = none)
    (r : FaultRecord) : u.fault = some r ↔ FaultDue s r := by
  cases h with
  | ignored hf => exact absurd hs hf
  | faulted r' _ hdue =>
    rw [hdue r, show (s.faultedWith r').fault = some r' from rfl, Option.some.injEq, eq_comm]
  | completed i t hi he hc hnot =>
    rw [State.endCycle_fault, hc.fault_eq, hs]
    exact ⟨nofun, fun hr => absurd hr (hnot r)⟩

/-- Every record names the address of the instruction. -/
theorem FaultDue.pc_eq {s : State} {r : FaultRecord} (h : FaultDue s r) : r.pc = s.pc := by
  cases h <;> rfl

/-! ### The timers in a cycle -/

theorem eq_ldDt_of_dt_mem {i : Instr} (h : .dt ∈ partsWritten i) : ∃ x, i = .ldDt x := by
  cases i <;> simp [partsWritten] at h ⊢

theorem eq_ldSt_of_st_mem {i : Instr} (h : .st ∈ partsWritten i) : ∃ x, i = .ldSt x := by
  cases i <;> simp [partsWritten] at h ⊢

theorem eq_rnd_of_rng_mem {i : Instr} (h : .rng ∈ partsWritten i) : ∃ x kk, i = .rnd x kk := by
  cases i <;> simp [partsWritten] at h ⊢

/-- `DT` before the decrement of the cycle of `i`: the value `Fx15` writes, else the value before. -/
def dtAfter (i : Instr) (s : State) : Byte := match i with | .ldDt x => s.reg x | _ => s.dt

/-- `ST` before the decrement of the cycle of `i`: the value `Fx18` writes, else the value before. -/
def stAfter (i : Instr) (s : State) : Byte := match i with | .ldSt x => s.reg x | _ => s.st

theorem dtAfter_of_ne {i : Instr} (h : ∀ x, i ≠ .ldDt x) (s : State) : dtAfter i s = s.dt := by
  cases i with
  | ldDt x => exact absurd rfl (h x)
  | _ => rfl

theorem stAfter_of_ne {i : Instr} (h : ∀ x, i ≠ .ldSt x) (s : State) : stAfter i s = s.st := by
  cases i with
  | ldSt x => exact absurd rfl (h x)
  | _ => rfl

theorem Completes.dt_eq {i : Instr} {s t : State} (h : Completes i s t) (he : exec i s = .next t) :
    t.dt = dtAfter i s := by
  by_cases hi : ∃ x, i = .ldDt x
  · obtain ⟨x, rfl⟩ := hi
    rw [exec_ldDt] at he
    cases he
    rfl
  · rw [dtAfter_of_ne (not_exists.1 hi)]
    exact h.frame.dt fun hm => hi (eq_ldDt_of_dt_mem hm)

theorem Completes.st_eq {i : Instr} {s t : State} (h : Completes i s t) (he : exec i s = .next t) :
    t.st = stAfter i s := by
  by_cases hi : ∃ x, i = .ldSt x
  · obtain ⟨x, rfl⟩ := hi
    rw [exec_ldSt] at he
    cases he
    rfl
  · rw [stAfter_of_ne (not_exists.1 hi)]
    exact h.frame.st fun hm => hi (eq_ldSt_of_st_mem hm)

theorem eq_one_iff_toNat (b : Byte) : b = 1 ↔ b.toNat = 1 :=
  ⟨fun h => h ▸ rfl, fun h => BitVec.eq_of_toNat_eq h⟩

theorem State.endCycle_toneStop_iff (s : State) : s.endCycle.toneStop = true ↔ s.st = 1 := by
  rw [State.endCycle_toneStop, decide_eq_true_iff]

theorem State.endCycle_toneStop_iff_toNat (s : State) :
    s.endCycle.toneStop = true ↔ s.st.toNat = 1 :=
  s.endCycle_toneStop_iff.trans (eq_one_iff_toNat s.st)

theorem State.endCycle_dt_toNat (s : State) : s.endCycle.dt.toNat = s.dt.toNat - 1 :=
  decremented_toNat s.dt

theorem State.endCycle_st_toNat (s : State) : s.endCycle.st.toNat = s.st.toNat - 1 :=
  decremented_toNat s.st

/-! ### The obligations on the cycle -/

/-- Settles O7: inside memory the fetched word is the two bytes put together, outside it is none. -/
theorem fetchReadsTwoBytesBigEndian : Obligations.FetchReadsTwoBytesBigEndian := fun m a =>
  ⟨fun ha => ⟨_, (fetchWord_eq_some m a _).2 ⟨ha, rfl⟩, wordOfBytes_toNat _ _⟩,
    fun ha => (fetchWord_eq_none m a).2 (Nat.succ_le_succ ha)⟩

/-- Settles O8: with no fault and the word at `pc` legal, the step is that of the decoded instruction. -/
theorem stepRunsTheDecodedInstruction : Obligations.StepRunsTheDecodedInstruction := by
  intro s i hf hp hd
  exact step_of_fetches s i ⟨hf, hp, hd⟩

/-- Settles O9: the step ends the cycle, which touches the timers, the tone and the model's own fields; the
instruction has left those fields alone. -/
theorem cycleEndsWithTimersAndTone : Obligations.CycleEndsWithTimersAndTone := by
  intro s t i hi he hf
  have hc := completes_of_fault_eq_none he hf
  have hkeys : t.endCycle.keys = s.keys.tail := by rw [State.endCycle_keys, hc.frame.keys]
  have hticks : t.endCycle.ticks = s.ticks + 1 := by rw [State.endCycle_ticks, hc.frame.ticks]
  exact ⟨t.endCycle, step_of_exec s t i hi he hf, t.endCycle_dt_toNat, t.endCycle_st_toNat,
    t.endCycle_toneStop_iff_toNat, rfl, rfl, rfl, rfl, rfl, rfl, rfl, rfl, hf, hkeys, hticks,
    hc.frame.resets⟩

/-- Settles O10: a completed cycle decrements the value its instruction left; a faulting or ignored one
leaves the state but for the record. -/
theorem timersCountEveryCompletedCycle : Obligations.TimersCountEveryCompletedCycle := by
  refine ⟨fun s u i hi h hu => ?_, fun s u h hu => ?_⟩
  · obtain ⟨t, he, hc, rfl⟩ := completes_of_step hi h hu
    rw [t.endCycle_dt_toNat, t.endCycle_st_toNat, hc.dt_eq he, hc.st_eq he]
    exact ⟨rfl, rfl⟩
  · rcases (stepOutcome_of_step h).eq_of_fault hu with ⟨-, rfl⟩ | ⟨r, -, -, rfl⟩
    · exact ⟨rfl, rfl⟩
    · exact ⟨rfl, rfl⟩

/-- Settles O11: the tone of a completed cycle looks at the `ST` its instruction left; fault entry clears
it. -/
theorem toneStopOnlyOnOneToZero : Obligations.ToneStopOnlyOnOneToZero := by
  refine ⟨fun s u i hi h hu => ?_, fun s u hs h hu => ?_⟩
  · obtain ⟨t, he, hc, rfl⟩ := completes_of_step hi h hu
    rw [t.endCycle_toneStop_iff, hc.st_eq he]
    exact Iff.rfl
  · rcases (stepOutcome_of_step h).eq_of_fault hu with ⟨hs', -⟩ | ⟨r, -, -, rfl⟩
    · exact absurd hs hs'
    · rfl

/-! ### The obligations on the faults -/

/-- Settles O12: past the last word the fetch faults; below it the fault due is another one. -/
theorem fetchFaultsOnlyPastTheEnd : Obligations.FetchFaultsOnlyPastTheEnd := by
  refine fun s hs => ⟨fun hp => step_of_noFetch s hs (Nat.succ_le_succ hp), fun hp u r h hr => ?_⟩
  cases ((stepOutcome_of_step h).fault_eq_some_iff hs r).1 hr with
  | fetchOutOfRange hge => omega
  | decodeFault | stackOverflow | stackUnderflow | memOutOfRange => exact nofun

/-- Settles O13: an illegal word faults in the decoding; for a word that decodes the fault due is another
one. -/
theorem illegalWordRaisesDecodeFault : Obligations.IllegalWordRaisesDecodeFault := by
  refine fun s hs hp => ⟨step_of_illegal s hs (Nat.succ_lt_succ hp), fun hd u r h hr => ?_⟩
  cases ((stepOutcome_of_step h).fault_eq_some_iff hs r).1 hr with
  | decodeFault _ hn => exact absurd hn hd
  | fetchOutOfRange | stackOverflow | stackUnderflow | memOutOfRange => exact nofun

/-- Settles O14: the first test of a tick is for the record. -/
theorem faultedCoreIgnoresTicks : Obligations.FaultedCoreIgnoresTicks := fun s hs =>
  step_of_faulted s (Option.isSome_iff_ne_none.2 hs)

/-- Settles O15: of the outcomes that end with a fault only fault entry starts without one. -/
theorem faultsKeepNoWrite : Obligations.FaultsKeepNoWrite := by
  intro s u hs h hu
  rcases (stepOutcome_of_step h).eq_of_fault hu with ⟨hs', -⟩ | ⟨r, -, hdue, rfl⟩
  · exact absurd hs hs'
  · exact ⟨r, rfl, hdue.pc_eq⟩

/-- Settles O16: each outcome carries what is due in it. -/
theorem faultsExactlyWhenDue : Obligations.FaultsExactlyWhenDue := fun _ _ hs h r =>
  (stepOutcome_of_step h).fault_eq_some_iff hs r

/-- Settles O17: each of the three outcomes is a next state. -/
theorem everyTickHasANextState : Obligations.EveryTickHasANextState := fun s =>
  (step_outcome s).imp fun _ h => h.1

/-! ### The obligations on the invariant and the frames -/

theorem StepOutcome.inv {s u : State} (h : StepOutcome s u) (hs : s.Inv) : u.Inv := by
  cases h with
  | ignored => exact hs
  | faulted r => exact hs.faultedWith r
  | completed i t hi he hc => exact (hc.inv hs hi.pc_le).endCycle (hc.fault_eq.trans hi.1)

/-- Settles O18: each outcome of a step keeps the invariant, a completed one because its instruction does. -/
theorem stepKeepsInvariant : Obligations.StepKeepsInvariant := fun _ _ hs h =>
  (stepOutcome_of_step h).inv hs

theorem State.reset_inv : State.reset.Inv where
  mem := State.reset_mem_wf
  index := by decide
  pc := by decide
  stack _ hk := absurd hk (Nat.not_lt_zero _)
  tone _ := rfl

/-- Settles O19: no memory cell is listed, no stack entry is live, no fault is recorded. -/
theorem resetMeetsInvariant : Obligations.ResetMeetsInvariant := State.reset_inv

/-- Settles O21: an instruction that answers a state with no fault has completed. -/
theorem instructionsWriteOnlyTheirState : Obligations.InstructionsWriteOnlyTheirState := by
  intro i s t he _ ht
  have hc := completes_of_fault_eq_none he ht
  exact ⟨hc.frame, hc.elsewhere⟩

end Sys2Proof.Machine
end

section
/-! PROOFS. The control transfers, the skips on registers and the arithmetic (spec 40_cycle_and_control R105 to
R114, 41_alu R138 to R143): the frames come from the one inversion of `exec`, the values from the rule of each
operation. -/

namespace Sys2Proof.Machine

/-! ### The frame of an instruction that completes -/

theorem frame_of_exec {i : Instr} {s t : State} (he : exec i s = .next t) (hd : dataBytes i = 0)
    (hs : .stack ∉ partsWritten i) : ChangesOnly (partsWritten i) (regsWritten i) s t :=
  (completes_of_no_instrFault (instrFault_eq_none hd hs s) he).frame

/-! ### Return and call -/

/-- Settles O22: with a live entry `RET` pops it, with none it faults. -/
theorem returnPopsOrUnderflows : Obligations.ReturnPopsOrUnderflows := fun s =>
  ⟨fun k hk =>
    have he := execRet_of_entry s k.val hk k.isLt
    have hlive : ¬ s.sp.val = 0 := by omega
    ⟨_, he, rfl, rfl, rfl, (completes_of_no_instrFault (i := .ret) (if_neg hlive) he).frame⟩,
    fun h0 => execRet_of_empty s h0⟩

/-- Settles O23: with room `CALL` writes its own address at `sp`, with none it faults. -/
theorem callPushesItsOwnAddressOrOverflows : Obligations.CallPushesItsOwnAddressOrOverflows := by
  intro s nnn
  refine ⟨fun hroom => ?_, fun hfull => execCall_of_full s nnn hfull⟩
  have he := execCall_of_room s nnn hroom
  have hnotFull : ¬ s.sp.val = 16 := by omega
  refine ⟨_, he, addrOperand_toNat nnn, rfl, fun k => ?_,
    (completes_of_no_instrFault (i := .call nnn) (if_neg hnotFull) he).frame⟩
  rw [State.goTo_stack, Vector.getElem_set]
  exact if_congr eq_comm rfl rfl

/-- Settles O24: the entry popped is the one the call wrote, its own address. -/
theorem returnResumesAfterTheCall : Obligations.ReturnResumesAfterTheCall := by
  intro s t u nnn hroom he hsp hstack
  rw [exec_call, execCall_of_room s nnn hroom] at he
  cases he
  have hk : s.sp.val + 1 = u.sp.val := congrArg Fin.val hsp.symm
  refine ⟨_, execRet_of_entry u s.sp.val hk hroom, ?_, rfl⟩
  simp only [State.goTo_pc, hstack, State.goTo_stack, Vector.getElem_set_self]

/-! ### Jump with offset, skips on registers -/

/-- Settles O26: the sum of a byte and a 12-bit address does not wrap. -/
theorem offsetJumpAddsV0 : Obligations.OffsetJumpAddsV0 := fun s nnn =>
  ⟨_, exec_jpV0 nnn s, offsetTarget_toNat _ nnn, s.goTo_changesOnly _ _ _⟩

/-- Settles O28: both skips are `skipIf`, on the test for equality and on its negation, and neither reads
the low nibble. -/
theorem registerSkipsCompareTwoRegisters : Obligations.RegisterSkipsCompareTwoRegisters :=
  fun s x y n =>
    ⟨⟨_, exec_seReg x y n s, s.skipIf_pc_of_iff beq_iff_eq, s.skipIf_changesOnly _ _ _⟩,
      ⟨_, exec_sneReg x y n s, s.skipIf_pc_of_iff bne_iff_ne, s.skipIf_changesOnly _ _ _⟩⟩

/-! ### Flags as numbers -/

theorem flagByte_toNat (b : Bool) : (flagByte b).toNat = if b then 1 else 0 := by
  cases b <;> rfl

theorem carryFlag_toNat (a b : Byte) :
    (carryFlag a b).toNat = if a.toNat + b.toNat > 255 then 1 else 0 := by
  simp only [carryFlag, flagByte_toNat, decide_eq_true_eq, gt_iff_lt]

theorem greaterFlag_toNat (a b : Byte) :
    (greaterFlag a b).toNat = if a.toNat > b.toNat then 1 else 0 := by
  simp only [greaterFlag, flagByte_toNat, decide_eq_true_eq, gt_iff_lt]

/-- Bit `k` of a byte, as a number. -/
theorem flagByte_getLsbD_toNat (a : Byte) (k : Nat) :
    (flagByte (a.getLsbD k)).toNat = a.toNat / 2 ^ k % 2 := by
  rw [flagByte_toNat, BitVec.getLsbD, Nat.testBit_eq_decide_div_mod_eq]
  simp only [decide_eq_true_eq]
  split <;> omega

theorem lowBitFlag_toNat (a : Byte) : (lowBitFlag a).toNat = a.toNat % 2 := by
  rw [lowBitFlag, flagByte_getLsbD_toNat, Nat.pow_zero, Nat.div_one]

theorem highBitFlag_toNat (a : Byte) : (highBitFlag a).toNat = a.toNat / 128 := by
  have ha := a.isLt
  rw [highBitFlag, flagByte_getLsbD_toNat]
  omega

theorem shiftRight_one_toNat (a : Byte) : (a >>> 1).toNat = a.toNat / 2 := by
  rw [BitVec.toNat_ushiftRight, Nat.shiftRight_eq_div_pow, Nat.pow_one]

theorem shiftLeft_one_toNat (a : Byte) : (a <<< 1).toNat = 2 * a.toNat % 256 := by
  rw [BitVec.toNat_shiftLeft, Nat.shiftLeft_eq, Nat.pow_one, Nat.mul_comm]

theorem sub_toNat (a b : Byte) : (a - b).toNat = (256 + a.toNat - b.toNat) % 256 := by
  have hb := b.isLt
  rw [BitVec.toNat_sub]
  omega

/-! ### The two orders of result and flag (R131) -/

theorem State.resultThenFlag_vf (s : State) (x : Reg) (result flag : Byte) :
    (s.resultThenFlag x result flag).reg 15 = flag := by
  rw [State.resultThenFlag, State.advance_reg, State.reg_setReg_self]

theorem State.resultThenFlag_result (s : State) {x : Reg} (hx : x ≠ 15) (result flag : Byte) :
    (s.resultThenFlag x result flag).reg x = result := by
  rw [State.resultThenFlag, State.advance_reg, State.reg_setReg, if_neg hx, State.reg_setReg_self]

theorem State.flagThenResult_result (s : State) (x : Reg) (flag result : Byte) :
    (s.flagThenResult x flag result).reg x = result := by
  rw [State.flagThenResult, State.advance_reg, State.reg_setReg_self]

theorem State.flagThenResult_vf (s : State) {x : Reg} (hx : x ≠ 15) (flag result : Byte) :
    (s.flagThenResult x flag result).reg 15 = flag := by
  rw [State.flagThenResult, State.advance_reg, State.reg_setReg, if_neg hx.symm,
    State.reg_setReg_self]

/-! ### Addition, subtractions, shifts -/

/-- Settles O31: the flag is written last, so it stands also where `x` is 15. -/
theorem addSetsCarry : Obligations.AddSetsCarry := fun s x y =>
  ⟨_, exec_addReg x y s, by rw [s.resultThenFlag_vf, carryFlag_toNat],
    fun hx => by rw [s.resultThenFlag_result hx, BitVec.toNat_add], rfl,
    frame_of_exec (exec_addReg x y s) rfl List.not_mem_nil⟩

/-- Settles O32: the difference is written last, so it stands also where `x` is 15. -/
theorem subtractionsSetStrictGreater : Obligations.SubtractionsSetStrictGreater := fun s x y =>
  ⟨⟨_, exec_subReg x y s, by rw [s.flagThenResult_result, sub_toNat],
      fun hx => by rw [s.flagThenResult_vf hx, greaterFlag_toNat], rfl,
      frame_of_exec (exec_subReg x y s) rfl List.not_mem_nil⟩,
    ⟨_, exec_subnReg x y s, by rw [s.flagThenResult_result, sub_toNat],
      fun hx => by rw [s.flagThenResult_vf hx, greaterFlag_toNat], rfl,
      frame_of_exec (exec_subnReg x y s) rfl List.not_mem_nil⟩⟩

/-- Settles O33: the shifted byte is written last, so it stands also where `x` is 15. -/
theorem shiftsSetTheBitShiftedOut : Obligations.ShiftsSetTheBitShiftedOut := fun s x y =>
  ⟨⟨_, exec_shr x y s, by rw [s.flagThenResult_result, shiftRight_one_toNat],
      fun hx => by rw [s.flagThenResult_vf hx, lowBitFlag_toNat], rfl,
      frame_of_exec (exec_shr x y s) rfl List.not_mem_nil⟩,
    ⟨_, exec_shl x y s, by rw [s.flagThenResult_result, shiftLeft_one_toNat],
      fun hx => by rw [s.flagThenResult_vf hx, highBitFlag_toNat], rfl,
      frame_of_exec (exec_shl x y s) rfl List.not_mem_nil⟩⟩

/-! ### Random -/

/-- Only `RND` names the random source among its parts, and a fault leaves it. -/
theorem rng_of_exec {i : Instr} {s t : State} (he : exec i s = .next t)
    (hi : ∀ x kk, i ≠ .rnd x kk) : t.rng = s.rng := by
  rcases exec_cases he with ⟨r, -, rfl⟩ | ⟨-, hc⟩
  · rfl
  · refine hc.frame.rng fun hm => ?_
    obtain ⟨x, kk, hi'⟩ := eq_rnd_of_rng_mem hm
    exact hi x kk hi'

/-- Settles O34: the byte written is the drawn one under the mask; the other instructions leave the source. -/
theorem randomDrawsOneMaskedByte : Obligations.RandomDrawsOneMaskedByte := by
  refine ⟨fun s x kk => ⟨_, exec_rnd x kk s, State.setReg_advance_reg _ _ _, fun b _ hb => ?_, rfl, rfl,
    frame_of_exec (exec_rnd x kk s) rfl (by simp [partsWritten])⟩, fun i s t => rng_of_exec⟩
  rw [State.setReg_advance_reg, BitVec.getLsbD_and, hb, Bool.false_and]

/-- Settles O35: after a reseed the byte drawn, and the next one, depend on the seed alone. -/
theorem sameSeedSameDraws : Obligations.SameSeedSameDraws := by
  intro s s' t t' seed x kk ht ht'
  have hbyte : (reseed s seed).randomByte = (reseed s' seed).randomByte := rfl
  rw [exec_rnd] at ht ht'
  cases ht
  cases ht'
  refine ⟨?_, rfl, rfl⟩
  rw [State.setReg_advance_reg, State.setReg_advance_reg, hbyte]

/-! ### The index register -/

/-- Settles O37: the sum is reduced before it is written, the product is far below 65536. -/
theorem addIndexAndFontPointer : Obligations.AddIndexAndFontPointer := fun s x =>
  ⟨⟨_, exec_addI x s, indexSum_toNat _ _, State.advance_pc _, s.setIndex_advance_changesOnly _⟩,
    ⟨_, exec_ldF x s, fontPointer_toNat _, State.advance_pc _, s.setIndex_advance_changesOnly _⟩⟩

end Sys2Proof.Machine
end

section
/-! PROOFS. Index and memory, the draw, the keys and the timers that are set (spec 20_memory R54 to R63,
42_index_and_memory R164 to R168, 43_display R182 to R191, 44_keys_and_timers R210 to R216). -/

namespace Sys2Proof.Machine

/-! ### Inside memory and outside -/

theorem instrFault_of_inside {i : Instr} {s : State} (hs : .stack ∉ partsWritten i)
    (h : ¬ s.accessOut (dataBytes i)) : instrFault i s = none :=
  (instrFault_of_no_stack hs s).trans (if_neg h)

/-- A data access that leaves memory is the instruction's fault, with the lowest offending address (R168). -/
theorem exec_of_accessOut {i : Instr} {s : State} (hs : .stack ∉ partsWritten i)
    (h : s.accessOut (dataBytes i)) : exec i s =
      .next (s.withFault .memOutOfRange (some (encode i)) (some (max s.index.toNat 4096))) := by
  have hr := (instrFault_of_no_stack hs s).trans (if_pos h)
  rcases exec_outcome i s with ⟨r, hr', he⟩ | ⟨t, hnone, -⟩
  · rw [hr] at hr'
    cases hr'
    exact he
  · rw [hr] at hnone
    cases hnone

/-- What a storing instruction does inside memory: its bytes lie from `I` on, and it completes. -/
theorem store_of_inside {i : Instr} {s : State} {bs : List Byte} (hs : .stack ∉ partsWritten i)
    (he : exec i s = .next (s.storeAtIndex (encode i) bs)) (hlen : bs.length = dataBytes i)
    (hin : s.index.toNat + dataBytes i ≤ 4096) :
    ∃ m, exec i s = .next (s.setMem m).advance ∧ Completes i s (s.setMem m).advance ∧
      ∀ k < bs.length, m.byteAt (s.index.toNat + k) = bs.getD k 0 := by
  obtain ⟨m, hm, -, hbytes⟩ := s.storeAtIndex_ok (encode i) bs (by rw [hlen]; exact hin)
  have hnone : instrFault i s = none := instrFault_of_inside hs fun h => Nat.not_lt.2 hin h.2
  rw [hm] at he
  refine ⟨m, he, completes_of_no_instrFault hnone he, fun k hk => ?_⟩
  rw [hbytes, s.base_eq, if_pos ⟨Nat.le_add_right _ _, Nat.add_lt_add_left hk _⟩, Nat.add_sub_cancel_left]

/-! ### Bytes and fetches -/

/-- Settles O42: a write answers `setByte`, whose cell reads as written and whose others read as before. -/
theorem byteAccessReadsLastWrite : Obligations.ByteAccessReadsLastWrite := by
  intro m a b w
  refine ⟨fun ha => ⟨m.setByte a w, if_pos ha, ?_, fun hb => ?_⟩, fun ha => ⟨if_neg ?_, if_neg ?_⟩⟩
  · rw [memRead, if_pos ha, Memory.byteAt_setByte, if_pos rfl]
  · rw [memRead, memRead, Memory.byteAt_setByte, if_neg hb]
  · exact Nat.not_lt.2 ha
  · exact Nat.not_lt.2 ha

/-! ### The decimal digits -/

@[simp] theorem decimalDigits_length (a : Byte) : (decimalDigits a).length = 3 := rfl

theorem digit_hundreds (a : Byte) : ((decimalDigits a).getD 0 0).toNat = a.toNat / 100 :=
  BitVec.toNat_udiv

theorem digit_tens (a : Byte) : ((decimalDigits a).getD 1 0).toNat = a.toNat / 10 % 10 := by
  show (a / 10 % 10).toNat = _
  rw [BitVec.toNat_umod, BitVec.toNat_udiv]
  rfl

theorem digit_units (a : Byte) : ((decimalDigits a).getD 2 0).toNat = a.toNat % 10 :=
  BitVec.toNat_umod

/-- Settles O38: inside memory the three digits are stored, else the access faults. -/
theorem bcdStoresThreeDigitsOrFaults : Obligations.BcdStoresThreeDigitsOrFaults := by
  intro s x
  have hs : Part.stack ∉ partsWritten (.ldB x) := by simp [partsWritten]
  refine ⟨fun hin => ?_, fun hout => exec_of_accessOut hs ⟨Nat.succ_ne_zero _, Nat.lt_succ_of_le hout⟩⟩
  obtain ⟨m, he, hc, hbytes⟩ := store_of_inside hs (exec_ldB x s) rfl hin
  refine ⟨_, he, ?_, ?_, ?_, hc.elsewhere, rfl, hc.frame⟩
  · exact (congrArg _ (hbytes 0 (by simp))).trans (digit_hundreds _)
  · exact (congrArg _ (hbytes 1 (by simp))).trans (digit_tens _)
  · exact (congrArg _ (hbytes 2 (by simp))).trans (digit_units _)

/-! ### Dump and load -/

/-- The dump inside memory, with the memory it leaves. -/
theorem dump_of_inside {s : State} {x : Reg} (hin : s.index.toNat + x.val < 4096) :
    ∃ m, exec (.dump x) s = .next (s.setMem m).advance ∧
      Completes (.dump x) s (s.setMem m).advance ∧
      ∀ k : Reg, k ≤ x → m.byteAt (s.index.toNat + k.val) = s.reg k := by
  obtain ⟨m, he, hc, hbytes⟩ := store_of_inside (i := .dump x) (by simp [partsWritten])
    (exec_dump x s) (s.regsUpTo_length x) hin
  refine ⟨m, he, hc, fun k hk => ?_⟩
  rw [hbytes k.val (by rw [s.regsUpTo_length]; exact Nat.lt_succ_of_le hk), s.regsUpTo_getD x k hk]

/-- Settles O39: inside memory the registers are stored, else the access faults. -/
theorem dumpStoresRegistersOrFaults : Obligations.DumpStoresRegistersOrFaults := by
  intro s x
  refine ⟨fun hin => ?_, fun hout => exec_of_accessOut (i := .dump x) (by simp [partsWritten])
    ⟨Nat.succ_ne_zero _, Nat.lt_succ_of_le hout⟩⟩
  obtain ⟨m, he, hc, hbytes⟩ := dump_of_inside hin
  exact ⟨_, he, hbytes, hc.elsewhere, rfl, hc.frame⟩

/-- Settles O40: inside memory the registers are loaded, else the access faults. -/
theorem loadReadsRegistersOrFaults : Obligations.LoadReadsRegistersOrFaults := by
  intro s x
  have hs : Part.stack ∉ partsWritten (.load x) := List.not_mem_nil
  refine ⟨fun hin => ?_, fun hout => exec_of_accessOut hs ⟨Nat.succ_ne_zero _, Nat.lt_succ_of_le hout⟩⟩
  have he := execLoad_of_inside x s hin
  have hnone : instrFault (.load x) s = none :=
    instrFault_of_inside hs fun h => Nat.not_lt.2 (Nat.succ_le_of_lt hin) h.2
  refine ⟨_, he, fun k hk => ?_, rfl, (completes_of_no_instrFault hnone he).frame⟩
  have hkx : k.val < x.val + 1 := Nat.lt_succ_of_le hk
  rw [State.advance_reg, State.setRegs_reg, loadFrom_getElem, if_pos (by simpa using hkx)]
  simp [List.getD_eq_getElem?_getD, hkx, State.base_eq]

/-- Settles O41: the load reads back, from the same place, the bytes the dump stored. -/
theorem dumpThenLoadRestoresRegisters : Obligations.DumpThenLoadRestoresRegisters := by
  intro s t u x hin he hmem hindex
  obtain ⟨m, he', hc, hbytes⟩ := dump_of_inside hin
  rw [he] at he'
  cases he'
  have hu : u.index = s.index := hindex
  have hum : u.mem = m := hmem
  obtain ⟨w, hw, hregs, -⟩ := (loadReadsRegistersOrFaults u x).1 (by rw [hu]; exact hin)
  refine ⟨w, hw, fun k hk => ?_⟩
  rw [hregs k hk, hum, hu, hbytes k hk]

/-- Settles O43: the bytes the next fetch reads are the registers dumped. -/
theorem storeIsSeenByTheNextFetch : Obligations.StoreIsSeenByTheNextFetch := by
  intro s x i hi hx hindex hroom hdecode
  have hpc : (s.pc + 2).toNat = s.pc.toNat + 2 := add_toNat_of_le hi.pc_le (by decide)
  have hin : s.index.toNat + x.val < 4096 := by rw [hindex, hpc]; exact hroom
  obtain ⟨m, he, hc, hbytes⟩ := dump_of_inside hin
  have h0 : m.byteAt (s.pc + 2).toNat = s.reg 0 := by
    rw [← hindex]
    exact hbytes 0 (Nat.zero_le _)
  have h1 : m.byteAt ((s.pc + 2).toNat + 1) = s.reg 1 := by
    rw [← hindex]
    exact hbytes 1 hx
  have hfault : (s.setMem m).advance.fault = none := hi.1
  refine ⟨_, step_of_exec s _ _ hi he hfault, hfault, ?_, ?_⟩
  · show (s.pc + 2).toNat + 1 < 4096
    omega
  · show decode (wordOfBytes (m.byteAt (s.pc + 2).toNat) (m.byteAt ((s.pc + 2).toNat + 1))) = some i
    rw [h0, h1]
    exact hdecode

/-! ### The draw -/

/-- The source bit looks at the row bytes of the sprite only. -/
theorem sourceBit_congr {rows rows' : Nat → Byte} {n : Nat} (h : ∀ k < n, rows k = rows' k)
    (sx sy : Nat) (c : Col) (r : Row) : sourceBit rows n sx sy c r = sourceBit rows' n sx sy c r := by
  unfold sourceBit
  by_cases hk : (r.val + 32 - sy) % 32 < n
  · simp only [h _ hk]
  · simp only [hk, decide_false, Bool.false_and]

theorem State.spriteRows_length (s : State) (n : Nibble) : (s.spriteRows n).length = n.toNat := by
  rw [State.spriteRows, List.length_map, List.length_range]

theorem State.spriteRows_getD (s : State) (n : Nibble) {k : Nat} (hk : k < n.toNat) :
    (s.spriteRows n).getD k 0 = s.mem.byteAt (s.index.toNat + k) := by
  simp [State.spriteRows, List.getD_eq_getElem?_getD, hk, State.base_eq]

/-- The bits of the loops' sprite are the bits of `Dxyn` (R190). -/
theorem sourceBit_spriteRows (s : State) (x y : Reg) (n : Nibble) (c : Col) (r : Row) :
    sourceBit (fun k => (s.spriteRows n).getD k 0) (s.spriteRows n).length
      (startCol (s.reg x)).val (startRow (s.reg y)).val c r = s.drawBit x y n c r := by
  rw [s.spriteRows_length]
  exact sourceBit_congr (fun k hk => s.spriteRows_getD n hk) _ _ c r

theorem flagByte_true_or_false {b : Bool} {p : Prop} (h : b = true ↔ p) :
    (flagByte b = 1 ∧ p) ∨ (flagByte b = 0 ∧ ¬ p) := by
  cases b with
  | true => exact .inl ⟨rfl, h.1 rfl⟩
  | false => exact .inr ⟨rfl, fun hp => Bool.false_ne_true (h.2 hp)⟩

/-- Settles O45: the rows of the sprite are the bytes from `I` on, and the compositor does to each cell what
its source bit says. -/
theorem drawInvertsCellsUnderSourceBits : Obligations.DrawInvertsCellsUnderSourceBits := by
  intro s x y n
  have hs : Part.stack ∉ partsWritten (.drw x y n) := by simp [partsWritten]
  refine ⟨fun hin => ?_, exec_of_accessOut hs⟩
  have hrows : (s.spriteRows n).length ≤ 32 := by
    have hn := n.isLt
    rw [s.spriteRows_length]
    omega
  obtain ⟨hpx, hdirty, hcollision⟩ :=
    compose_spec s.display (startCol (s.reg x)) (startRow (s.reg y)) (s.spriteRows n) hrows
  simp only [sourceBit_spriteRows] at hpx hdirty hcollision
  have hfits : n.toNat = 0 ∨ s.base + n.toNat ≤ Config.memSize :=
    (Nat.eq_zero_or_pos n.toNat).imp_right fun hpos => Nat.not_lt.1 fun hlt => hin ⟨by omega, hlt⟩
  have he := execDrw_of_inside x y n s hfits
  refine ⟨_, he, hpx, hdirty, ?_, rfl, (completes_of_no_instrFault (instrFault_of_inside hs hin) he).frame⟩
  rw [State.advance_reg, State.reg_setReg_self]
  refine (flagByte_true_or_false hcollision).imp_right fun ⟨h0, hno⟩ => ⟨h0, fun c r hbit => ?_⟩
  exact Bool.eq_false_iff.2 fun hset => hno ⟨c, r, hbit, hset⟩

/-- Settles O46: the second draw inverts the same cells again, and collides where the first draw set one. -/
theorem drawingTwiceRestoresPixels : Obligations.DrawingTwiceRestoresPixels := by
  intro s t u x y n hin he hdisplay hmem hindex hx hy
  obtain ⟨t', he', hpx, -⟩ := (drawInvertsCellsUnderSourceBits s x y n).1 hin
  rw [he] at he'
  cases he'
  have hbit : ∀ c r, u.drawBit x y n c r = s.drawBit x y n c r := fun c r => by
    simp only [State.drawBit, hmem, hindex, hx, hy]
  have hupx : ∀ c r, u.px c r = (s.px c r ^^ s.drawBit x y n c r) := fun c r => by
    rw [← hpx, State.px, hdisplay, State.px]
  have huin : ¬ u.accessOut n.toNat := by rwa [State.accessOut, hindex]
  obtain ⟨w, hw, hwpx, -, hflag, -⟩ := (drawInvertsCellsUnderSourceBits u x y n).1 huin
  refine ⟨w, hw, fun c r => ?_, ?_⟩
  · rw [hwpx, hbit, hupx, Bool.xor_assoc, Bool.xor_self, Bool.xor_false]
  · have hcell : ∀ c r, s.drawBit x y n c r = true → (u.px c r = true ↔ s.px c r = false) := by
      intro c r hset
      rw [hupx, hset, Bool.xor_true, Bool.not_eq_true']
    simp only [hbit] at hflag
    rcases hflag with ⟨h1, c, r, hset, hpix⟩ | ⟨h0, hclear⟩
    · exact ⟨fun _ => ⟨c, r, hset, (hcell c r hset).1 hpix⟩, fun _ => h1⟩
    · refine ⟨fun h1 => ?_, fun ⟨c, r, hset, hpix⟩ => ?_⟩
      · rw [h0] at h1
        exact absurd h1 (by decide)
      · have hcontra := (hcell c r hset).2 hpix
        rw [hclear c r hset] at hcontra
        cases hcontra

/-- Settles O47: the drain answers the dirty set and writes the display only. -/
theorem drainReturnsAndEmptiesTheDirtySet : Obligations.DrainReturnsAndEmptiesTheDirtySet := fun s =>
  ⟨fun _ _ => rfl, fun c r => Grid.get_filled false c r, fun _ _ => rfl, rfl,
    s.setDisplay_changesOnly _ (List.mem_singleton_self _) _⟩

/-! ### The keys -/

/-- The test of `SKP` and `SKNP`, as the statements put it. -/
theorem keyIs_iff_map (k : KeySample) (b : Byte) :
    keyIs k b = true ↔ k.map Fin.val = some b.toNat := by
  rw [keyIs_iff, Option.map_eq_some_iff]

/-- The complement of a skip's condition turns its two distances around. -/
theorem State.skipIf_not_pc_of_iff (s : State) {c : Bool} {p : Prop} [Decidable p]
    (h : c = true ↔ p) : (s.skipIf (!c)).pc = s.pc + (if p then 2 else 4) := by
  have hnot : (!c) = true ↔ ¬ p := by rw [Bool.not_eq_true', ← h, Bool.not_eq_true]
  rw [s.skipIf_pc_of_iff hnot, ite_not]

/-- Settles O48: both skips are `skipIf`, on the test of the whole byte and on its negation. -/
theorem keySkipsCompareTheWholeByte : Obligations.KeySkipsCompareTheWholeByte := by
  rintro s x k rfl
  exact ⟨⟨_, exec_skp x s, s.skipIf_pc_of_iff (keyIs_iff_map _ _), s.skipIf_changesOnly _ _ _⟩,
    ⟨_, exec_sknp x s, s.skipIf_not_pc_of_iff (keyIs_iff_map _ _), s.skipIf_changesOnly _ _ _⟩⟩

theorem exec_ldKey_of_some {s : State} (x : Reg) {k : Key} (h : s.key = some k) :
    exec (.ldKey x) s = .next (s.setReg x (keyByte k)).advance := by
  rw [exec_ldKey, s.awaitKey_of_some x k h]

theorem exec_ldKey_of_none {s : State} (x : Reg) (h : s.key = none) :
    exec (.ldKey x) s = .next (s.goTo s.pc) := by
  rw [exec_ldKey, s.awaitKey_of_none x h]

/-- Settles O49: the wait writes nothing, so its cycle is the end of the cycle alone. -/
theorem waitForKeyHoldsOrStores : Obligations.WaitForKeyHoldsOrStores := by
  intro s x
  refine ⟨fun k hk => ⟨_, exec_ldKey_of_some x hk, ?_, rfl, s.setReg_advance_changesOnly x _⟩,
    fun hk => ⟨_, exec_ldKey_of_none x hk, rfl, s.goTo_changesOnly _ _ _⟩, fun hk hi => ?_⟩
  · rw [State.setReg_advance_reg, keyByte_toNat]
  · exact ⟨_, step_of_exec s _ _ hi (exec_ldKey_of_none x hk) hi.1, rfl, rfl,
      State.endCycle_dt_toNat _, State.endCycle_st_toNat _, State.endCycle_toneStop_iff_toNat _, hi⟩

/-! ### Setting a timer -/

/-- Settles O52: the end of the same cycle counts down from the copy. -/
theorem setTimerCopiesAndCountsAtOnce : Obligations.SetTimerCopiesAndCountsAtOnce := fun s x =>
  ⟨⟨_, exec_ldDt x s, rfl, rfl, frame_of_exec (exec_ldDt x s) rfl (by simp [partsWritten])⟩,
    ⟨_, exec_ldSt x s, rfl, rfl, frame_of_exec (exec_ldSt x s) rfl (by simp [partsWritten])⟩,
    fun hi => ⟨_, step_of_exec s _ _ hi (exec_ldDt x s) hi.1, State.endCycle_dt_toNat _, rfl⟩,
    fun hi => ⟨_, step_of_exec s _ _ hi (exec_ldSt x s) hi.1, State.endCycle_st_toNat _,
      State.endCycle_toneStop_iff_toNat _, rfl⟩⟩

end Sys2Proof.Machine
end

section
/-! PROOFS. Reset, load, the tick with a key sample and the run (spec 00_scope R18, 60_exceptions R256,
70_reset_and_hazards R270 to R272): one tick comes to one of the outcomes of a step, and a run is an induction
over its ticks. -/

namespace Sys2Proof.Machine

/-! ### Reset -/

theorem fontBytes_length : Config.fontBytes.length = 80 := rfl

theorem unlisted_of_ge {a : Nat} (h : 80 ≤ a) : unlisted a = 0 :=
  List.getD_eq_default _ _ (by rwa [fontBytes_length])

/-- Settles O53: a host reset differs from the power-on state in the count of resets alone. -/
theorem resetPutsEveryPieceAtItsValue : Obligations.ResetPutsEveryPieceAtItsValue := by
  have hreg : ∀ x, State.reset.reg x = 0 := fun x => Vector.getElem_replicate x.isLt
  have hstack : ∀ k : Fin 16, State.reset.stack[k.val] = 0 := fun k => Vector.getElem_replicate k.isLt
  have hpx : ∀ c r, State.reset.px c r = false := Grid.get_filled false
  have hdirty : ∀ c r, State.reset.dirty c r = true := Grid.get_filled true
  rintro t (rfl | ⟨s, rfl⟩) <;>
    exact ⟨hreg, rfl, rfl, rfl, hstack, rfl, rfl, fun _ _ => rfl, fun _ => unlisted_of_ge, hpx, hdirty,
      rfl, rfl⟩

/-! ### Load -/

theorem imageFits_iff (bytes : List Byte) : imageFits bytes = true ↔ bytes.length ≤ 3584 :=
  decide_eq_true_iff

/-- A load before the first tick that fits: exactly the image's bytes change (70_reset_and_hazards R272). -/
theorem loadRom_of_fits {s : State} {bytes : List Byte} (ht : s.ticks = 0) (hf : s.fault = none)
    (hfits : bytes.length ≤ 3584) :
    ∃ m, loadRom s bytes = .next (s.setMem m) ∧ (s.mem.wf → m.wf) ∧
      ∀ b, m.byteAt b =
        if 0x200 ≤ b ∧ b < 0x200 + bytes.length then bytes.getD (b - 0x200) 0 else s.mem.byteAt b := by
  obtain ⟨m, hm, hwf, hbytes⟩ := writeBytes_ok s.mem Config.memStart bytes
    (.inr (by simp only [Config.memStart, Config.memSize]; omega))
  exact ⟨m, by simp [loadRom, ht, hf, (imageFits_iff bytes).2 hfits, hm], hwf, hbytes⟩

theorem loadRom_of_long {s : State} {bytes : List Byte} (ht : s.ticks = 0) (hf : s.fault = none)
    (hlong : 3584 < bytes.length) : loadRom s bytes = .refused .romTooLarge := by
  have hfits : imageFits bytes = false :=
    Bool.eq_false_iff.2 fun h => Nat.not_lt.2 ((imageFits_iff bytes).1 h) hlong
  simp [loadRom, ht, hf, hfits]

theorem loadRom_of_late {s : State} (h : s.ticks ≠ 0 ∨ s.fault.isSome) (bytes : List Byte) :
    loadRom s bytes = .refused .loadAfterFirstTick :=
  if_pos h

/-- Settles O54: an image that fits is written as one sequence of bytes, a longer one is turned away. -/
theorem loadPlacesTheImageOrRefuses : Obligations.LoadPlacesTheImageOrRefuses := by
  refine fun s bytes ht hf => ⟨fun hfits => ?_, loadRom_of_long ht hf⟩
  obtain ⟨m, hm, -, hbytes⟩ := loadRom_of_fits ht hf hfits
  refine ⟨_, hm, fun j hj => ?_, fun b hb => ?_, rfl,
    s.setMem_changesOnly _ (List.mem_singleton_self _) m⟩
  · rw [State.setMem_mem, hbytes, if_pos ⟨Nat.le_add_right _ _, Nat.add_lt_add_left hj _⟩,
      Nat.add_sub_cancel_left]
  · rw [State.setMem_mem, hbytes, if_neg hb]

/-! ### One tick with a key sample -/

/-- Every tick has a next state, that of an outcome of a step with the sample announced. -/
theorem tick_outcome (s : State) (k : KeySample) :
    ∃ t, step (presentKey s k) = .next t ∧ StepOutcome (presentKey s k) t ∧
      tick s k = .next (t.setKeys s.keys) := by
  obtain ⟨t, ht, ho⟩ := step_outcome (presentKey s k)
  exact ⟨t, ht, ho, tick_of_step ht⟩

/-- A cycle that completes has used up the sample announced for it. -/
theorem StepOutcome.keys_eq {s u : State} (h : StepOutcome s u) (hu : u.fault = none) :
    u.keys = s.keys.tail := by
  cases h with
  | ignored hf => exact absurd hu hf
  | faulted r => cases hu
  | completed i t _ _ hc => rw [State.endCycle_keys, hc.frame.keys]

/-- Settles O50: the tick is the step with the sample at the head of the queue, and the key of that step is
the head. -/
theorem tickPresentsItsKeySample : Obligations.TickPresentsItsKeySample := by
  intro s k
  have hpc : ∀ b, keyIs (presentKey s k).key b = true ↔ k.map Fin.val = some b.toNat := keyIs_iff_map k
  refine ⟨rfl, rfl, ?_, fun x hi => ?_, fun x hi => ?_, fun x hi => ?_⟩
  · obtain ⟨t, ht, ho, htick⟩ := tick_outcome s k
    exact ⟨t, ht, htick, ho.keys_eq⟩
  · exact ⟨_, tick_of_exec s _ k _ hi (exec_skp x _) hi.1, rfl, State.skipIf_pc_of_iff _ (hpc _)⟩
  · exact ⟨_, tick_of_exec s _ k _ hi (exec_sknp x _) hi.1, rfl, State.skipIf_not_pc_of_iff _ (hpc _)⟩
  · cases k with
    | none => exact ⟨_, tick_of_exec s _ none _ hi (exec_ldKey_of_none x rfl) hi.1, rfl, rfl⟩
    | some key =>
      refine ⟨_, tick_of_exec s _ (some key) _ hi (exec_ldKey_of_some x rfl) hi.1, rfl, ?_, fun y hy => ?_⟩
      · rw [State.setKeys_reg, State.endCycle_reg, State.setReg_advance_reg, keyByte_toNat]
      · rw [State.setKeys_reg, State.endCycle_reg, State.advance_reg, State.reg_setReg, if_neg hy]
        rfl

/-- A tick of a core with no fault records a fault, or counts one cycle. -/
theorem tick_faults_or_counts {s : State} (hs : s.fault = none) (k : KeySample) :
    (∃ r, tick s k = .next (s.faultedWith r)) ∨
    (∃ t, tick s k = .next t ∧ t.fault = none ∧ t.keys = s.keys ∧ t.resets = s.resets ∧
      t.ticks = s.ticks + 1) := by
  obtain ⟨t, -, ho, htick⟩ := tick_outcome s k
  cases ho with
  | ignored hf => exact absurd hs hf
  | faulted r => exact .inl ⟨r, htick⟩
  | completed i t' _ _ hc =>
    exact .inr ⟨_, htick, hc.fault_eq.trans hs, rfl, hc.frame.resets, congrArg (· + 1) hc.frame.ticks⟩

/-! ### The invariant through the environment's operations -/

theorem loadRom_inv {s u : State} {bytes : List Byte} (hs : s.Inv) (h : loadRom s bytes = .next u) :
    u.Inv := by
  by_cases hlate : s.ticks ≠ 0 ∨ s.fault.isSome
  · rw [loadRom_of_late hlate] at h
    cases h
  · rw [not_or, not_not, Option.not_isSome_iff_eq_none] at hlate
    obtain ⟨ht, hf⟩ := hlate
    rcases Nat.lt_or_ge 3584 bytes.length with hlong | hfits
    · rw [loadRom_of_long ht hf hlong] at h
      cases h
    · obtain ⟨m, hm, hwf, -⟩ := loadRom_of_fits ht hf hfits
      rw [hm] at h
      cases h
      exact hs.setMem (hwf hs.mem)

theorem tick_inv {s u : State} {k : KeySample} (hs : s.Inv) (h : tick s k = .next u) : u.Inv := by
  obtain ⟨t, -, ho, htick⟩ := tick_outcome s k
  rw [htick] at h
  cases h
  exact (ho.inv (hs.setKeys _)).setKeys _

theorem runTicks_inv {s u : State} {ks : List KeySample} (hs : s.Inv)
    (h : runTicks ks s = .next u) : u.Inv := by
  induction ks generalizing s with
  | nil =>
    rw [runTicks_nil] at h
    cases h
    exact hs
  | cons k ks ih =>
    obtain ⟨t, -, -, htick⟩ := tick_outcome s k
    rw [runTicks_cons htick] at h
    exact ih (tick_inv hs htick) h

/-- Settles O20: reset meets the invariant, ticks and runs keep it as steps do, and the other operations
write nothing it speaks of but a memory that stays canonical. -/
theorem hostOperationsKeepInvariant : Obligations.HostOperationsKeepInvariant := by
  intro s hs
  have hreset := State.reset_inv
  exact ⟨⟨hreset.mem, hreset.index, hreset.pc, hreset.stack, hreset.tone⟩,
    fun _ => ⟨hs.mem, hs.index, hs.pc, hs.stack, hs.tone⟩, fun _ => hs.setKeys _, hs.setDisplay _,
    fun _ _ => loadRom_inv hs, fun _ _ => tick_inv hs, fun _ _ => runTicks_inv hs⟩

/-! ### A run -/

theorem runTicks_of_faulted {s : State} (hs : s.fault ≠ none) (ks : List KeySample) :
    runTicks ks s = .next s := by
  induction ks with
  | nil => rfl
  | cons k ks ih =>
    rw [runTicks_cons (tick_of_faulted s k (Option.isSome_iff_ne_none.2 hs)), ih]

/-- What is claimed of a run that starts with no fault. -/
structure RunOutcome (ks : List KeySample) (s t : State) : Prop where
  run : runTicks ks s = .next t
  keys : t.keys = s.keys
  resets : t.resets = s.resets
  counted : t.fault = none → t.ticks = s.ticks + ks.length
  stopped : t.fault ≠ none → ∃ j < ks.length, t.ticks = s.ticks + j ∧
    (∃ m, runTicks (ks.take j) s = .next m ∧ m.fault = none) ∧
    runTicks (ks.take (j + 1)) s = .next t

/-- A run whose first tick faults ends there. -/
theorem RunOutcome.of_fault {s : State} {k : KeySample} {r : FaultRecord} (hs : s.fault = none)
    (h : tick s k = .next (s.faultedWith r)) (ks : List KeySample) :
    RunOutcome (k :: ks) s (s.faultedWith r) where
  run := (runTicks_cons h ks).trans (runTicks_of_faulted (Option.some_ne_none r) ks)
  keys := rfl
  resets := rfl
  counted := nofun
  stopped _ := ⟨0, Nat.succ_pos _, rfl, ⟨s, rfl, hs⟩, runTicks_cons h []⟩

/-- A run whose first tick completes is that tick and the run of the others. -/
theorem RunOutcome.cons {s t u : State} {k : KeySample} {ks : List KeySample}
    (h : tick s k = .next t) (hkeys : t.keys = s.keys) (hresets : t.resets = s.resets)
    (hticks : t.ticks = s.ticks + 1) (hrun : RunOutcome ks t u) : RunOutcome (k :: ks) s u where
  run := (runTicks_cons h ks).trans hrun.run
  keys := hrun.keys.trans hkeys
  resets := hrun.resets.trans hresets
  counted hu := by
    rw [hrun.counted hu, hticks, List.length_cons]
    omega
  stopped hu := by
    obtain ⟨j, hj, hcount, ⟨m, hm, hmf⟩, hlast⟩ := hrun.stopped hu
    refine ⟨j + 1, Nat.succ_lt_succ hj, by omega, ⟨m, ?_, hmf⟩, ?_⟩
    · rw [List.take_succ_cons, runTicks_cons h, hm]
    · rw [List.take_succ_cons, runTicks_cons h, hlast]

theorem exists_runOutcome {s : State} (hs : s.fault = none) (ks : List KeySample) :
    ∃ t, RunOutcome ks s t := by
  induction ks generalizing s with
  | nil => exact ⟨s, rfl, rfl, rfl, fun _ => rfl, fun h => absurd hs h⟩
  | cons k ks ih =>
    rcases tick_faults_or_counts hs k with ⟨r, hr⟩ | ⟨t, ht, hf, hkeys, hresets, hticks⟩
    · exact ⟨_, .of_fault hs hr ks⟩
    · exact (ih hf).imp fun u hu => hu.cons ht hkeys hresets hticks

/-- Settles O55: by induction over the ticks, each of which faults, and ends the run, or counts one cycle. -/
theorem everyRunEndsAfterItsTicks : Obligations.EveryRunEndsAfterItsTicks := by
  intro ks s
  by_cases hs : s.fault = none
  · obtain ⟨t, ht⟩ := exists_runOutcome hs ks
    exact ⟨t, ht.run, ht.keys, ht.resets, fun hf => ⟨hs, ht.counted hf⟩, fun _ => ht.stopped,
      fun h => absurd hs h⟩
  · exact ⟨s, runTicks_of_faulted hs ks, rfl, rfl, fun h => absurd h hs, fun h => absurd h hs,
      fun _ => rfl⟩

/-! ### The end of a run -/

/-- A tick at a self-jump counts the timers down and leaves the rest to the next tick (R106, R220). -/
theorem tick_selfJump {s : State} {nnn : Addr12} (hi : Fetches s (.jp nnn))
    (hpc : s.pc.toNat = nnn.toNat) (k : KeySample) :
    tick s k = .next { s with
      dt := decremented s.dt, st := decremented s.st, toneStop := decide (s.st = 1),
      ticks := s.ticks + 1 } := by
  have htarget : addrOperand nnn = s.pc :=
    BitVec.eq_of_toNat_eq ((addrOperand_toNat nnn).trans hpc.symm)
  rw [tick_of_exec s _ k _ hi (exec_jp nnn _) hi.1, htarget]
  rfl

/-- The two ways to say that the next fetch is a jump to its own address. -/
theorem fetches_of_atSelfJump {s : State} (hs : s.fault = none) (h : s.atSelfJump = true) :
    Fetches s (.jp (s.pc.setWidth 12)) ∧ s.pc.toNat = (s.pc.setWidth 12).toNat := by
  obtain ⟨hpc, hword⟩ := s.atSelfJump_iff.1 h
  refine ⟨⟨hs, hpc, by rw [hword, decode_encode]⟩, ?_⟩
  simp only [Config.memSize] at hpc
  rw [BitVec.toNat_setWidth]
  omega

theorem atSelfJump_of_fetches {s : State} {nnn : Addr12} (hi : Fetches s (.jp nnn))
    (hpc : s.pc.toNat = nnn.toNat) : s.atSelfJump = true := by
  have htarget : s.pc.setWidth 12 = nnn := by
    apply BitVec.eq_of_toNat_eq
    have hn := nnn.isLt
    rw [BitVec.toNat_setWidth]
    omega
  exact s.atSelfJump_iff.2 ⟨hi.2.1, by rw [htarget, hi.encode_eq]⟩

/-- Settles O56: an idle core is at a self-jump with timers that stay 0. -/
theorem endedRunStaysEnded : Obligations.EndedRunStaysEnded := by
  intro s k
  refine ⟨fun h => tick_of_faulted s k (s.runStatus_eq_faulted.1 h), fun h => ?_⟩
  obtain ⟨hs, hjump, hdt, hst⟩ := s.runStatus_eq_idle.1 h
  obtain ⟨hi, hpc⟩ := fetches_of_atSelfJump hs hjump
  have hdt' : decremented s.dt = s.dt := by rw [hdt]; rfl
  have hst' : decremented s.st = s.st := by rw [hst]; rfl
  have htone : decide (s.st = 1) = false := by rw [hst]; rfl
  refine ⟨_, tick_selfJump hi hpc k, ?_, ?_⟩
  · exact (State.runStatus_eq_idle _).2 ⟨hs, hjump, hdt'.trans hdt, hst'.trans hst⟩
  · rw [hdt', hst', htone]

/-- A run at a self-jump, as one update of the state. -/
theorem runTicks_selfJump (ks : List KeySample) {s : State} {nnn : Addr12} (hi : Fetches s (.jp nnn))
    (hpc : s.pc.toNat = nnn.toNat) :
    ∃ dt st tone ticks,
      runTicks ks s = .next { s with dt := dt, st := st, toneStop := tone, ticks := ticks } ∧
      dt.toNat = s.dt.toNat - ks.length ∧ st.toNat = s.st.toNat - ks.length := by
  induction ks generalizing s with
  | nil => exact ⟨s.dt, s.st, s.toneStop, s.ticks, rfl, rfl, rfl⟩
  | cons k ks ih =>
    have htick := tick_selfJump hi hpc k
    obtain ⟨dt, st, tone, ticks, hrun, hdt, hst⟩ := ih (s := { s with
      dt := decremented s.dt, st := decremented s.st, toneStop := decide (s.st = 1),
      ticks := s.ticks + 1 }) hi hpc
    refine ⟨dt, st, tone, ticks, (runTicks_cons htick ks).trans hrun, ?_, ?_⟩
    · rw [hdt, decremented_toNat, List.length_cons]
      omega
    · rw [hst, decremented_toNat, List.length_cons]
      omega

/-- Settles O57: by induction over the ticks the run is one update of the timers, the tone and the count. -/
theorem selfJumpRunsTheTimersDown : Obligations.SelfJumpRunsTheTimersDown := by
  intro ks s nnn hi hpc
  obtain ⟨dt, st, tone, ticks, hrun, hdt, hst⟩ := runTicks_selfJump ks hi hpc
  refine ⟨_, hrun, rfl, hdt, hst, ?_, fun hdk hsk => (State.runStatus_eq_idle _).2 ⟨hi.1, ?_, ?_, ?_⟩⟩
  · exact (s.setDt_changesOnly _ (by simp) dt).trans ((s.setDt dt).setSt_changesOnly _ (by simp) st)
  · exact atSelfJump_of_fetches hi hpc
  · exact BitVec.eq_of_toNat_eq (hdt.trans (Nat.sub_eq_zero_of_le hdk))
  · exact BitVec.eq_of_toNat_eq (hst.trans (Nat.sub_eq_zero_of_le hsk))

end Sys2Proof.Machine
end
